-- ==== Sys2Proof/Word.lean ====
section
/-! DEFINITION. The word types of the x86_32rs core (spec 00_scope.md R6: XLEN 32, byte 8; 10_state.md R20: port numbers of 16 bits). -/

namespace Sys2Proof

/-- A 32-bit register value, address or immediate (R6). -/
abbrev Word := BitVec 32

/-- One byte: the unit of memory and of the port space (R6, R20). -/
abbrev Byte := BitVec 8

/-- A port number: the low 16 bits of EDX (R20). -/
abbrev Port := BitVec 16

end Sys2Proof
end

