-- ==== Sys2Proof/Machine/Bytes.lean ====
section
/-! DEFINITION. Byte order and sign extension, each decided once: little-endian for data and for instruction bytes alike (20_memory.md R32). -/

namespace Sys2Proof

/-- The unsigned value of bytes in address order: the first is the least significant (R32, R33). -/
def leNat : List Byte → Nat
  | [] => 0
  | b :: bs => b.toNat + 256 * leNat bs

/-- The low `n` bytes of `v` in address order: the byte at offset k is `v[8k+7:8k]` (R32, R34). -/
def leBytes : Nat → Nat → List Byte
  | 0, _ => []
  | n + 1, v => BitVec.ofNat 8 v :: leBytes n (v / 256)

/-- The four bytes of a word in address order. -/
def wordBytes (v : Word) : List Byte :=
  leBytes 4 v.toNat

/-- `sext_32` of a byte: the working width of every 8-bit immediate, offset and displacement (R39). -/
def sext8 (b : Byte) : Word :=
  b.signExtend 32

end Sys2Proof
end

