-- ==== Sys2Proof/Config.lean ====
section
/-! DEFINITION. The parameters that a core is created with (00_scope.md R6) as plain data, and the free values: constants without a body for what the spec leaves open (92_eei_decisions.md D3, D22, D23). -/

namespace Sys2Proof

/-- `SUB_IMM8_UNDERFLOW` (R6, R112, D13): what `sub rm32, imm8` does when the unsigned minuend is the smaller. -/
inductive SubUnderflow where
  | fault | wrap
  deriving DecidableEq, Repr, Inhabited

/-- `CMP_AL_WIDTH` (R6, R100, D16): the operand width of the flag update of `cmp AL, imm8`. -/
inductive CmpAlWidth where
  | w8 | w32
  deriving DecidableEq, Repr, Inhabited

/-- The parameters of R6 that the creation of a core fixes for its whole run. They stand in the state, where no
instruction reads or writes them except as its rule says, so that a statement about every state is a statement
about every value of the parameters. -/
structure Config where
  /-- `MEM_SIZE`, 1 to 2^32 (R6, R30). -/
  memSize : Nat
  /-- `SUB_IMM8_UNDERFLOW` (R6). -/
  subUnderflow : SubUnderflow
  /-- `SUB_WRITES_FLAGS` (R6, D14). -/
  subWritesFlags : Bool
  /-- `CMP_AL_WIDTH` (R6). -/
  cmpAlWidth : CmpAlWidth
  deriving DecidableEq, Repr

/-- `VideoFormat` (R6, R151, D22): the bytes that the video service emits for a character, a colour index and
the brightness flag. External and uninterpreted: nothing in this model evaluates it. -/
opaque Config.videoFormat : Byte → BitVec 3 → Bool → List Byte

/-- Free value: a word that a stop inside a handler leaves in a register (slots 0 to 7) or in `eip` (slot 8)
(40_core_step_and_flag_alu.md R82, D3). The first argument is the draw, read from `State.draw`. -/
opaque Config.freeWord : Nat → Nat → Word

/-- Free value: a flag after a stop inside a handler (R82, D3); the second argument is the slot, 0 to 3 for
CF, ZF, SF, OF. -/
opaque Config.freeFlag : Nat → Nat → Bool

/-- Free value: the bytes of memory after a stop inside a handler (R82, D3). -/
opaque Config.freeMemory : Nat → List Host.Cell

/-- Free value: `in_pos` after a stop inside a handler (60_exceptions.md R164). -/
opaque Config.freeCount : Nat → Nat

/-- Free value: the byte that an empty input line is answered with (49_port_io.md R157, D23). -/
opaque Config.emptyLineByte : Nat → Byte

end Sys2Proof
end

