-- ==== Sys2Proof/Machine/Defaults.lean ====
section
/-! DEFINITION. The parameter values that the core of `State.reset` is created with (00_scope.md R6; notes/assumptions 1 to 5). -/

namespace Sys2Proof.Machine

/-- DESIGN CHOICE (notes/assumptions/1.md): `MEM_SIZE` is open in R6; the reset core has the largest memory R6
admits, the whole 32-bit address space. The three other values are R6's own. -/
def defaultConfig : Config where
  memSize := 4294967296
  subUnderflow := .fault
  subWritesFlags := true
  cmpAlWidth := .w8

/-- DESIGN CHOICE (notes/assumptions/2.md): `INIT_EIP` is open in R6. -/
def initEip : Word := 0

/-- DESIGN CHOICE (notes/assumptions/3.md): `INIT_ESP` is open in R6; the register file is created
zero-initialized (10_state.md R24, 70_reset_and_hazards.md R180). -/
def initEsp : Word := 0

end Sys2Proof.Machine
end

