-- ==== Sys2Proof/Machine/State.lean ====
section
/-! DEFINITION. The state of the core (10_state.md), as plain data, its stops, faults and refusals, and the state after reset. -/

namespace Sys2Proof.Machine

/-- The register file (R10): eight 32-bit slots. The 8-bit views of R12 are computed from them. -/
structure Regs where
  eax : Word
  ecx : Word
  edx : Word
  ebx : Word
  esp : Word
  ebp : Word
  esi : Word
  edi : Word
  deriving DecidableEq, Repr

/-- The flags (R16): four independent booleans, with no packed form. -/
structure Flags where
  cf : Bool
  zf : Bool
  sf : Bool
  of : Bool
  deriving DecidableEq, Repr

/-- The memory array (20_memory.md R30), as the bytes that differ from `Memory.unlisted`, in one canonical form
(`Memory.wf`). -/
abbrev Memory := List Host.Cell

/-- The eight error kinds (60_exceptions.md R161). -/
inductive StopKind where
  | outOfBounds
  | endOfStream
  | unimplementedOpcode
  | unimplementedAddressingMode
  | unimplementedInterruptVector
  | unimplementedPort
  | invalidRegister
  | arithmeticUnderflow
  deriving DecidableEq, Repr

/-- An error with the info of R161's last column, which R163 lets a model attach; no rule depends on it. -/
inductive StopError where
  /-- A data access of `n` bytes at `addr` leaves memory: `MemRead`, `MemWrite`. -/
  | outOfBounds (addr : Word) (n : Nat)
  /-- An instruction byte is fetched outside memory: `n` bytes at `addr`. -/
  | endOfStream (addr : Word) (n : Nat)
  /-- An opcode byte that is none of the 61 (no `reg`), or an unmapped group slot. -/
  | unimplementedOpcode (op : Byte) (reg : Option (BitVec 3))
  /-- A ModRM pattern of R58. -/
  | unimplementedAddressingMode (modrm : Byte)
  /-- `int imm8` with a vector other than 0x10, or vector 0x10 with an unsupported AH. -/
  | unimplementedInterruptVector (vec : Byte) (ah : Option Byte)
  /-- `PortWrite` to a port other than 0x3F8. -/
  | unimplementedPort (port : Port)
  /-- A register index outside 0 to 7; nothing raises it (R11). -/
  | invalidRegister (index : Nat)
  /-- `sub rm32, imm8` with the smaller unsigned minuend. -/
  | arithmeticUnderflow (a imm : Word)
  deriving DecidableEq, Repr

/-- The run status (R19). -/
inductive Status where
  | running
  | stopped (err : StopError)
  deriving DecidableEq, Repr

/-- Everything the spec gives the machine. -/
structure State where
  /-- The register file (R10). -/
  regs : Regs
  /-- The instruction pointer (R15); during an instruction, the fetch cursor past its last byte. -/
  eip : Word
  /-- The flags (R16). -/
  flags : Flags
  /-- Memory (R20, R30). -/
  mem : Memory
  /-- The run status (R19). -/
  status : Status
  /-- `out_trace` (R22): the (port, byte) pairs emitted, the earliest first. -/
  outTrace : List (Port × Byte)
  /-- `PortIn` (49_port_io.md R157): the first bytes of the lines that the environment has supplied, the earliest
  first; a read beyond them waits. -/
  portIn : List Byte
  /-- `in_pos` (R22): how many bytes of `portIn` the core has consumed. -/
  inPos : Nat
  /-- The parameters that the core was created with (00_scope.md R6). -/
  cfg : Config
  /-- The model's own field: the counter that free values are drawn with (notes/assumptions/6.md). -/
  draw : Nat
  deriving DecidableEq, Repr

/-- Why the machine has no next state. -/
inductive Fault where
  /-- Raised by `step` when `status` is `Stopped`: the core has no step (40_core_step_and_flag_alu.md R80). The
  caller receives the error (60_exceptions.md R160). Safe. -/
  | halted (err : StopError)
  /-- Raised by `in AL, DX` on port 0x3F8 with no input line available: the core is blocked, a stuck state that is
  neither a stop nor an end of the run (49_port_io.md R157, 60_exceptions.md R174). The caller may supply a line and
  step the same state again. Safe. -/
  | blockedOnInput
  deriving DecidableEq, Repr

/-- Why an instruction has no meaning. -/
inductive Refusal where
  /-- Raised by an arm of `exec` whose instruction is not modelled; no arm raises it. Safe. -/
  | notModelled (mnemonic : String)
  deriving DecidableEq, Repr

/-- The outcome of an instruction or a step. -/
abbrev Result := Host.Outcome State Fault Refusal

/-- Creation of a core (R24, 70_reset_and_hazards.md R180): registers zero, flags clear (D5), no memory byte
listed, running, nothing emitted, no input consumed. `eip` is open until `Load` sets it (R186). -/
def State.create (cfg : Config) : State where
  regs := ⟨0, 0, 0, 0, initEsp, 0, 0, 0⟩
  eip := initEip
  flags := ⟨false, false, false, false⟩
  mem := []
  status := .running
  outTrace := []
  portIn := []
  inPos := 0
  cfg := cfg
  draw := 0

/-- The machine right after reset (R24, R181), for the parameters of `defaultConfig`. -/
def State.reset : State :=
  State.create defaultConfig

end Sys2Proof.Machine
end

