-- ==== Sys2Proof/Syntax.lean ====
section
/-! DEFINITION. The syntax of the 28 instruction forms of spec/opcode_table.json, one constructor of `Instr` per row, in the table's order (30_encoding.md R66). -/

namespace Sys2Proof

/-- The eight 32-bit general registers, in index order 0 to 7 (10_state.md R10). -/
inductive Reg32 where
  | eax | ecx | edx | ebx | esp | ebp | esi | edi
  deriving DecidableEq, Repr, Inhabited

/-- The eight 8-bit views, in index order 0 to 7 (10_state.md R12). -/
inductive Reg8 where
  | al | cl | dl | bl | ah | ch | dh | bh
  deriving DecidableEq, Repr, Inhabited

/-- The displacement of a memory operand as ModRM.mod encodes it: 00 none, 01 one byte (sign-extended when
used), 10 four bytes (30_encoding.md R52, R56). -/
inductive Disp where
  | none
  | disp8 (d : Byte)
  | disp32 (d : Word)
  deriving DecidableEq, Repr, Inhabited

/-- The `rm` operand (10_state.md R21, 30_encoding.md R56): a register of the type `R` that the instruction
gives it (mod = 11), or memory at a base register plus a displacement. -/
inductive RM (R : Type) where
  | reg (r : R)
  | mem (base : Reg32) (d : Disp)
  deriving DecidableEq, Repr, Inhabited

/-- The 28 forms. Immediates and relative offsets stand as the instruction's bytes give them, low byte first
(R52); their extension is part of the meaning. -/
inductive Instr where
  /-- `jmp rel32` (R90) -/
  | jmpRel32 (rel : Word)
  /-- `js rel8` (R91) -/
  | jsRel8 (rel : Byte)
  /-- `jz rel8` (R92) -/
  | jzRel8 (rel : Byte)
  /-- `jle rel8` (R93) -/
  | jleRel8 (rel : Byte)
  /-- `cmp AL, imm8` (R100) -/
  | cmpAlImm8 (imm : Byte)
  /-- `cmp r32, rm32` (R101) -/
  | cmpR32Rm32 (r : Reg32) (m : RM Reg32)
  /-- `cmp rm32, imm8` (R102) -/
  | cmpRm32Imm8 (m : RM Reg32) (imm : Byte)
  /-- `add rm32, r32` (R110) -/
  | addRm32R32 (m : RM Reg32) (r : Reg32)
  /-- `add rm32, imm8` (R111) -/
  | addRm32Imm8 (m : RM Reg32) (imm : Byte)
  /-- `sub rm32, imm8` (R112) -/
  | subRm32Imm8 (m : RM Reg32) (imm : Byte)
  /-- `mov rm32, r32` (R120) -/
  | movRm32R32 (m : RM Reg32) (r : Reg32)
  /-- `mov r32, rm32` (R121) -/
  | movR32Rm32 (r : Reg32) (m : RM Reg32)
  /-- `mov r8, rm8` (R122) -/
  | movR8Rm8 (r : Reg8) (m : RM Reg8)
  /-- `mov rm32, imm32` (R123). `ignored` is the ModRM `reg` field, which this form does not examine (R67); it
  is kept so that decoding drops no bit of the encoding. -/
  | movRm32Imm32 (ignored : BitVec 3) (m : RM Reg32) (imm : Word)
  /-- `mov r8, imm8` (R124) -/
  | movR8Imm8 (r : Reg8) (imm : Byte)
  /-- `mov r32, imm32` (R125) -/
  | movR32Imm32 (r : Reg32) (imm : Word)
  /-- `inc rm32` (R130) -/
  | incRm32 (m : RM Reg32)
  /-- `inc r32` (R131) -/
  | incR32 (r : Reg32)
  /-- `push r32` (R135) -/
  | pushR32 (r : Reg32)
  /-- `pop r32` (R136) -/
  | popR32 (r : Reg32)
  /-- `push imm8` (R137) -/
  | pushImm8 (imm : Byte)
  /-- `call rel32` (R138) -/
  | callRel32 (rel : Word)
  /-- `ret` (R139) -/
  | ret
  /-- `leave` (R140) -/
  | leave
  /-- `neg rm32` (R145) -/
  | negRm32 (m : RM Reg32)
  /-- `int imm8` (R150) -/
  | intImm8 (vec : Byte)
  /-- `in AL, DX` (R155) -/
  | inAlDx
  /-- `out DX, AL` (R156) -/
  | outDxAl
  deriving DecidableEq, Repr, Inhabited

end Sys2Proof
end

