-- ==== Sys2Proof/Machine/Ops.lean ====
section
/-! DEFINITION. The named operations over registers, memory, stack, ports and the run status, each written once (10_state.md, 20_memory.md, 49_port_io.md, 60_exceptions.md). -/

namespace Sys2Proof.Machine

/-! ### Registers (R10 to R14) -/

/-- `get32(i)` on the register file (R11). -/
def Regs.get (rs : Regs) : Reg32 → Word
  | .eax => rs.eax
  | .ecx => rs.ecx
  | .edx => rs.edx
  | .ebx => rs.ebx
  | .esp => rs.esp
  | .ebp => rs.ebp
  | .esi => rs.esi
  | .edi => rs.edi

/-- `set32(i, v)` on the register file (R11). -/
def Regs.set (rs : Regs) (r : Reg32) (v : Word) : Regs :=
  match r with
  | .eax => { rs with eax := v }
  | .ecx => { rs with ecx := v }
  | .edx => { rs with edx := v }
  | .ebx => { rs with ebx := v }
  | .esp => { rs with esp := v }
  | .ebp => { rs with ebp := v }
  | .esi => { rs with esi := v }
  | .edi => { rs with edi := v }

/-- The slot that an 8-bit view lies in (R12). -/
def owner : Reg8 → Reg32
  | .al => .eax
  | .cl => .ecx
  | .dl => .edx
  | .bl => .ebx
  | .ah => .eax
  | .ch => .ecx
  | .dh => .edx
  | .bh => .ebx

/-- Whether an 8-bit view is bits 15:8 of its slot rather than bits 7:0 (R12, 90_conflicts.md C1). -/
def isHigh : Reg8 → Bool
  | .al => false
  | .cl => false
  | .dl => false
  | .bl => false
  | .ah => true
  | .ch => true
  | .dh => true
  | .bh => true

/-- The byte that a view reads from its slot (R12). -/
def viewGet (high : Bool) (w : Word) : Byte :=
  if high then w.extractLsb' 8 8 else w.extractLsb' 0 8

/-- A slot with the byte of a view replaced; the other three bytes are preserved (R13). -/
def viewSet (high : Bool) (w : Word) (v : Byte) : Word :=
  if high then w.extractLsb' 16 16 ++ v ++ w.extractLsb' 0 8 else w.extractLsb' 8 24 ++ v

/-- `x[i]` (R11). -/
def State.get32 (s : State) (r : Reg32) : Word :=
  s.regs.get r

/-- `x[i] <- v` (R11). -/
def State.set32 (s : State) (r : Reg32) (v : Word) : State :=
  { s with regs := s.regs.set r v }

/-- `x8[i]` (R12). -/
def State.get8 (s : State) (r : Reg8) : Byte :=
  viewGet (isHigh r) (s.get32 (owner r))

/-- `x8[i] <- v` (R13). -/
def State.set8 (s : State) (r : Reg8) (v : Byte) : State :=
  s.set32 (owner r) (viewSet (isHigh r) (s.get32 (owner r)) v)

/-- The port number of `in` and `out`: EDX[15:0] (R155, R156). -/
def State.portDX (s : State) : Port :=
  (s.get32 .edx).extractLsb' 0 16

/-- `eip <- target`. -/
def State.setEip (s : State) (target : Word) : State :=
  { s with eip := target }

/-- `eip <- (eip + rel) mod 2^32` (R15, R90). -/
def State.jumpRel (s : State) (rel : Word) : State :=
  s.setEip (s.eip + rel)

/-- All four flags at once (R17). -/
def State.setFlags (s : State) (f : Flags) : State :=
  { s with flags := f }

/-! ### The memory array (R30 to R34) -/

/-- DESIGN CHOICE (notes/assumptions/4.md): what a byte reads as that neither the image nor a store has written
(`INIT_MEM` is open in R6). -/
def Memory.unlisted : Byte := 0

/-- The canonical form: addresses strictly rising, and no entry equal to what an unlisted address reads as. -/
abbrev Memory.wf (m : Memory) : Prop :=
  m.Pairwise (fun c d => c.1 < d.1) ∧ ∀ c ∈ m, c.2 ≠ Memory.unlisted

/-- `mem[a]`. -/
def Memory.read (m : Memory) (a : Nat) : Byte :=
  match m with
  | [] => Memory.unlisted
  | (k, b) :: m' => if k = a then b else Memory.read m' a

/-- An entry in front of a memory of higher addresses; none for the byte an unlisted address reads as. -/
def Memory.cons (a : Nat) (v : Byte) (m : Memory) : Memory :=
  if v = Memory.unlisted then m else (a, v) :: m

/-- `mem[a] <- v`, keeping the canonical form. -/
def Memory.write (m : Memory) (a : Nat) (v : Byte) : Memory :=
  match m with
  | [] => Memory.cons a v []
  | (k, b) :: m' =>
    if a < k then Memory.cons a v ((k, b) :: m')
    else if k = a then Memory.cons a v m'
    else (k, b) :: Memory.write m' a v

/-- The `n` bytes from address `a` up. -/
def Memory.readBytes (m : Memory) (a : Nat) : Nat → List Byte
  | 0 => []
  | n + 1 => Memory.read m a :: Memory.readBytes m (a + 1) n

/-- Bytes stored at `a` and up. -/
def Memory.writeBytes (m : Memory) (a : Nat) : List Byte → Memory
  | [] => m
  | b :: bs => Memory.writeBytes (Memory.write m a b) (a + 1) bs

/-- Cells stored one after the other, those outside a memory of `size` bytes left out. -/
def Memory.place (size : Nat) (m : Memory) : List Host.Cell → Memory
  | [] => m
  | (a, b) :: cs => Memory.place size (if a < size then Memory.write m a b else m) cs

/-- `mem[a]` of a state. -/
def State.byteAt (s : State) (a : Nat) : Byte :=
  s.mem.read a

/-- The bounds check (R31): `addr + n ≤ MEM_SIZE` over the unbounded integers. -/
def State.inBounds (s : State) (a : Word) (n : Nat) : Bool :=
  a.toNat + n ≤ s.cfg.memSize

/-- `MemRead(addr, n)` (R33). -/
def State.memRead (s : State) (a : Word) (n : Nat) : Except StopError Nat :=
  if s.inBounds a n then .ok (leNat (s.mem.readBytes a.toNat n)) else .error (.outOfBounds a n)

/-- `MemRead(addr, 1)`. -/
def State.memRead8 (s : State) (a : Word) : Except StopError Byte :=
  (s.memRead a 1).map (BitVec.ofNat 8)

/-- `MemRead(addr, 2)`: the memory has it and no instruction uses it (R36, D28). -/
def State.memRead16 (s : State) (a : Word) : Except StopError (BitVec 16) :=
  (s.memRead a 2).map (BitVec.ofNat 16)

/-- `MemRead(addr, 4)`. -/
def State.memRead32 (s : State) (a : Word) : Except StopError Word :=
  (s.memRead a 4).map (BitVec.ofNat 32)

/-- `MemWrite(addr, n, v)` (R34): the check precedes every byte write. -/
def State.memWrite (s : State) (a : Word) (n : Nat) (v : Nat) : Except StopError State :=
  if s.inBounds a n then .ok { s with mem := s.mem.writeBytes a.toNat (leBytes n v) }
  else .error (.outOfBounds a n)

/-- `MemWrite(addr, 1, v)`: the memory has it and no instruction uses it (R36). -/
def State.memWrite8 (s : State) (a : Word) (v : Byte) : Except StopError State :=
  s.memWrite a 1 v.toNat

/-- `MemWrite(addr, 2, v)`: the memory has it and no instruction uses it (R36, D28). -/
def State.memWrite16 (s : State) (a : Word) (v : BitVec 16) : Except StopError State :=
  s.memWrite a 2 v.toNat

/-- `MemWrite(addr, 4, v)`. -/
def State.memWrite32 (s : State) (a : Word) (v : Word) : Except StopError State :=
  s.memWrite a 4 v.toNat

/-! ### The stack (R40, R41) -/

/-- `Push32(v)` (R40): esp is lowered by 4 modulo 2^32, then the word is written at the new esp. -/
def State.push32 (s : State) (v : Word) : Except StopError State :=
  (s.set32 .esp (s.get32 .esp - 4)).memWrite32 (s.get32 .esp - 4) v

/-- `Pop32()` (R41): the word at the old esp is read, then esp is raised by 4 modulo 2^32. -/
def State.pop32 (s : State) : Except StopError (Word × State) := do
  let v ← s.memRead32 (s.get32 .esp)
  return (v, s.set32 .esp (s.get32 .esp + 4))

/-! ### The port space (49_port_io.md R157, R158; 60_exceptions.md R172) -/

/-- The one defined port. -/
def serialPort : Port := 0x3F8

/-- Bytes emitted to the character sink of port 0x3F8, the first first. -/
def State.emit (s : State) (bs : List Byte) : State :=
  { s with outTrace := s.outTrace ++ bs.map (fun b => (serialPort, b)) }

/-- `PortWrite(port, b)` (R158). -/
def State.portWrite (s : State) (port : Port) (b : Byte) : Except StopError State :=
  if port = serialPort then .ok (s.emit [b]) else .error (.unimplementedPort port)

/-- `PortRead(port)` (R157): none while no input line is available for port 0x3F8; any other port reads 0. -/
def State.portRead (s : State) (port : Port) : Option (Byte × State) :=
  if port = serialPort then
    match s.portIn[s.inPos]? with
    | none => none
    | some b => some (b, { s with inPos := s.inPos + 1 })
  else some (0, s)

/-- The environment supplies one line of input (R157): its first byte joins `PortIn` and the rest is discarded; an
empty line is answered with a free byte (D23). -/
def State.supplyLine (s : State) (line : List Byte) : State :=
  match line with
  | b :: _ => { s with portIn := s.portIn ++ [b] }
  | [] => { s with portIn := s.portIn ++ [Config.emptyLineByte s.draw], draw := s.draw + 1 }

/-! ### The external video service (48_software_interrupt.md R151) -/

/-- `VideoService()` (R151): with AH = 0x0E the bytes of `VideoFormat(AL, BL[2:0], BL[3])` go to port 0x3F8; every
other AH stops the core (D21). No register, flag or memory byte changes (D22). -/
def State.videoService (s : State) : Except StopError State :=
  if s.get8 .ah = 0x0E then
    .ok (s.emit (Config.videoFormat (s.get8 .al) ((s.get8 .bl).extractLsb' 0 3) ((s.get8 .bl).getLsbD 3)))
  else .error (.unimplementedInterruptVector 0x10 (some (s.get8 .ah)))

/-! ### The stop (60_exceptions.md R160 to R164) -/

/-- The kind of an error (R161). -/
def StopError.kind : StopError → StopKind
  | .outOfBounds _ _ => .outOfBounds
  | .endOfStream _ _ => .endOfStream
  | .unimplementedOpcode _ _ => .unimplementedOpcode
  | .unimplementedAddressingMode _ => .unimplementedAddressingMode
  | .unimplementedInterruptVector _ _ => .unimplementedInterruptVector
  | .unimplementedPort _ => .unimplementedPort
  | .invalidRegister _ => .invalidRegister
  | .arithmeticUnderflow _ _ => .arithmeticUnderflow

/-- The numeric code of an error kind (R161, D4). -/
def StopKind.code : StopKind → Nat
  | .outOfBounds => 1
  | .endOfStream => 2
  | .unimplementedOpcode => 3
  | .unimplementedAddressingMode => 4
  | .unimplementedInterruptVector => 5
  | .unimplementedPort => 6
  | .invalidRegister => 7
  | .arithmeticUnderflow => 8

/-- The `err` output (R161): code 0 while the core runs. -/
def Status.code : Status → Nat
  | .running => 0
  | .stopped e => e.kind.code

/-- `raise E` at dispatch (R160, R164): `status` becomes `Stopped(E)` and nothing else changes. -/
def State.stopAtDispatch (s : State) (e : StopError) : State :=
  { s with status := .stopped e }

/-- What a stop raised inside a handler leaves open (40_core_step_and_flag_alu.md R82, 60_exceptions.md R164): every
register, `eip`, the flags, memory and `in_pos` hold free values. -/
def State.unspecified (s : State) : State :=
  { s with
    regs := ⟨Config.freeWord s.draw 0, Config.freeWord s.draw 1, Config.freeWord s.draw 2, Config.freeWord s.draw 3,
      Config.freeWord s.draw 4, Config.freeWord s.draw 5, Config.freeWord s.draw 6, Config.freeWord s.draw 7⟩
    eip := Config.freeWord s.draw 8
    flags := ⟨Config.freeFlag s.draw 0, Config.freeFlag s.draw 1, Config.freeFlag s.draw 2, Config.freeFlag s.draw 3⟩
    mem := Memory.place s.cfg.memSize [] (Config.freeMemory s.draw)
    inPos := Config.freeCount s.draw
    draw := s.draw + 1 }

/-- `raise E` inside a handler (R160, R164): `status` becomes `Stopped(E)`, `out_trace` keeps what was appended, and
the rest is unspecified. -/
def State.stopInHandler (s : State) (e : StopError) : State :=
  s.unspecified.stopAtDispatch e

/-- The end of a handler that began in `s` (R82): its state on success, the stop on a `raise`. No handler of the
subset appends to `out_trace` before a `raise`, so the trace to keep is that of `s`. -/
def State.finish (s : State) (r : Except StopError State) : Result :=
  match r with
  | .ok t => .next t
  | .error e => .next (s.stopInHandler e)

/-! ### Load (70_reset_and_hazards.md R186) -/

/-- What the loader does to a created core: the image's bytes into memory, then `eip`, then `esp` (R186). Bytes
outside memory are not placed. -/
def State.load (s : State) (image : List Host.Cell) (eip esp : Word) : State :=
  { s with mem := Memory.place s.cfg.memSize s.mem image, eip := eip, regs := s.regs.set .esp esp }

end Sys2Proof.Machine
end

