-- ==== Sys2Proof/Machine/Flags.lean ====
section
/-! DEFINITION. The flag ALU: the subtraction primitive and the condition predicates (40_core_step_and_flag_alu.md R83 to R86). No other operation computes a flag. -/

namespace Sys2Proof.Machine

/-- `full`, the difference over the unbounded integers (R83). -/
def fullDifference {W : Nat} (a b : BitVec W) : Int :=
  (a.toNat : Int) - (b.toNat : Int)

/-- `r`, the result truncated to the operand width (R83). -/
def truncatedDifference {W : Nat} (a b : BitVec W) : BitVec W :=
  BitVec.ofInt W (fullDifference a b)

/-- `FlagSub(W, a, b)` (R83): zero of the truncated result, its top bit, unsigned borrow, signed overflow. -/
def flagSub {W : Nat} (a b : BitVec W) : Flags where
  cf := decide (a.toNat < b.toNat)
  zf := decide (truncatedDifference a b = 0)
  sf := (truncatedDifference a b).msb
  of := (a.msb != b.msb) && ((truncatedDifference a b).msb != a.msb)

/-- Condition S of `js` (R85). -/
def Flags.condS (f : Flags) : Bool :=
  f.sf

/-- Condition Z of `jz` (R85). -/
def Flags.condZ (f : Flags) : Bool :=
  f.zf

/-- Condition LE of `jle` (R85): signed less-or-equal. -/
def Flags.condLE (f : Flags) : Bool :=
  f.zf || (f.sf != f.of)

end Sys2Proof.Machine
end

