-- ==== Sys2Proof/Machine/Operands.lean ====
section
/-! DEFINITION. The operand forms: the effective address and the accessors of the resolved operand (30_encoding.md R56 to R62). -/

namespace Sys2Proof.Machine

/-- A displacement at the working width of 32 bits (R52): none adds 0, one byte is sign-extended. -/
def dispValue : Disp → Word
  | .none => 0
  | .disp8 d => sext8 d
  | .disp32 d => d

/-- The effective address (R57): the 32-bit base register as it stands before the instruction writes anything, plus
the displacement, modulo 2^32. -/
def State.effAddr (s : State) (base : Reg32) (d : Disp) : Word :=
  s.get32 base + dispValue d

/-- `GetRM32(m)` (R59). -/
def State.getRM32 (s : State) : RM Reg32 → Except StopError Word
  | .reg r => .ok (s.get32 r)
  | .mem base d => s.memRead32 (s.effAddr base d)

/-- `SetRM32(m, v)` (R59). No instruction changes the base register before it, so the address is the one that
`Resolve` computed. -/
def State.setRM32 (s : State) (m : RM Reg32) (v : Word) : Except StopError State :=
  match m with
  | .reg r => .ok (s.set32 r v)
  | .mem base d => s.memWrite32 (s.effAddr base d) v

/-- `GetRM8(m)` (R60): an 8-bit view, or the byte at the effective address. -/
def State.getRM8 (s : State) : RM Reg8 → Except StopError Byte
  | .reg r => .ok (s.get8 r)
  | .mem base d => s.memRead8 (s.effAddr base d)

end Sys2Proof.Machine
end

