-- ==== Sys2Proof/Machine/Arith.lean ====
section
/-! DEFINITION. Arithmetic into a register or memory operand (43_arithmetic.md R110 to R112, 45_increment.md R130 and R131, 47_negate.md R145). Only `sub` writes flags (R86). -/

namespace Sys2Proof.Machine

/-- Read the operand, apply `f`, write the result to the same operand: the wrapping arithmetic of R110, R111, R130 and
R145, which writes no flag. -/
def State.modifyRM32 (s : State) (m : RM Reg32) (f : Word → Word) : Except StopError State := do
  let a ← s.getRM32 m
  s.setRM32 m (f a)

/-- `add rm32, r32` (R110). -/
def execAddRm32R32 (m : RM Reg32) (r : Reg32) (s : State) : Result :=
  s.finish (s.modifyRM32 m fun a => a + s.get32 r)

/-- `add rm32, imm8` (R111). -/
def execAddRm32Imm8 (m : RM Reg32) (imm : Byte) (s : State) : Result :=
  s.finish (s.modifyRM32 m fun a => a + sext8 imm)

/-- Whether a subtraction stops the core (R112, D13): an unsigned underflow when `SUB_IMM8_UNDERFLOW` is `fault`. -/
def subUnderflows (u : SubUnderflow) (a imm : Word) : Bool :=
  match u with
  | .fault => decide (a.toNat < imm.toNat)
  | .wrap => false

/-- The flags after a subtraction when `SUB_WRITES_FLAGS`, else the state as it is (R112, D14). -/
def State.subFlags (s : State) (a imm : Word) : State :=
  if s.cfg.subWritesFlags then s.setFlags (flagSub a imm) else s

/-- `sub rm32, imm8` (R112): read, underflow check, store, flags. -/
def execSubRm32Imm8 (m : RM Reg32) (imm : Byte) (s : State) : Result :=
  s.finish do
    let a ← s.getRM32 m
    if subUnderflows s.cfg.subUnderflow a (sext8 imm) then
      .error (.arithmeticUnderflow a (sext8 imm))
    else do
      let t ← s.setRM32 m (a - sext8 imm)
      return t.subFlags a (sext8 imm)

/-- `inc rm32` (R130). -/
def execIncRm32 (m : RM Reg32) (s : State) : Result :=
  s.finish (s.modifyRM32 m fun a => a + 1)

/-- `inc r32` (R131). -/
def execIncR32 (r : Reg32) (s : State) : Result :=
  .next (s.set32 r (s.get32 r + 1))

/-- `neg rm32` (R145): 0 minus the operand modulo 2^32; the most negative value is its own negation (D15). -/
def execNegRm32 (m : RM Reg32) (s : State) : Result :=
  s.finish (s.modifyRM32 m fun a => 0 - a)

end Sys2Proof.Machine
end

