-- ==== Sys2Proof/Machine/Compare.lean ====
section
/-! DEFINITION. The compare instructions (42_compare.md R100 to R102): operand 1 minus operand 2 into the flags, the result discarded. -/

namespace Sys2Proof.Machine

/-- The flags of `cmp AL, imm8` at the width that `CMP_AL_WIDTH` gives; at 32 bits both operands are zero-extended
(R100, D16). -/
def flagsCmpAl (w : CmpAlWidth) (al imm : Byte) : Flags :=
  match w with
  | .w8 => flagSub al imm
  | .w32 => flagSub (al.setWidth 32) (imm.setWidth 32)

/-- `cmp AL, imm8` (R100). -/
def execCmpAlImm8 (imm : Byte) (s : State) : Result :=
  .next (s.setFlags (flagsCmpAl s.cfg.cmpAlWidth (s.get8 .al) imm))

/-- `cmp r32, rm32` (R101). -/
def execCmpR32Rm32 (r : Reg32) (m : RM Reg32) (s : State) : Result :=
  s.finish do
    let b ← s.getRM32 m
    return s.setFlags (flagSub (s.get32 r) b)

/-- `cmp rm32, imm8` (R102): the immediate is sign-extended (D17). -/
def execCmpRm32Imm8 (m : RM Reg32) (imm : Byte) (s : State) : Result :=
  s.finish do
    let a ← s.getRM32 m
    return s.setFlags (flagSub a (sext8 imm))

end Sys2Proof.Machine
end

