-- ==== Sys2Proof/Machine/External.lean ====
section
/-! DEFINITION. The instructions that call out of the core: the software interrupt (48_software_interrupt.md R150, R151) and port input and output (49_port_io.md R155, R156). -/

namespace Sys2Proof.Machine

/-- `int imm8` (R150): vector 0x10 calls the video service and the program goes on at the next instruction; it is no
trap. Every other vector stops the core. -/
def execIntImm8 (vec : Byte) (s : State) : Result :=
  s.finish (if vec = 0x10 then s.videoService else .error (.unimplementedInterruptVector vec none))

/-- `in AL, DX` (R155): the byte of the port goes to AL; on port 0x3F8 the core waits for a line (R157). -/
def execInAlDx (s : State) : Result :=
  match s.portRead s.portDX with
  | none => .fault .blockedOnInput
  | some (b, t) => .next (t.set8 .al b)

/-- `out DX, AL` (R156). -/
def execOutDxAl (s : State) : Result :=
  s.finish (s.portWrite s.portDX (s.get8 .al))

end Sys2Proof.Machine
end

