-- ==== Sys2Proof/Machine/Jump.lean ====
section
/-! DEFINITION. The relative jumps (41_jumps.md R90 to R93). A meaning begins with `eip` past the instruction's last byte, the address that the offset is relative to. -/

namespace Sys2Proof.Machine

/-- A conditional jump (R91 to R93, R94): the sign-extended offset is added to `eip` when the condition holds. -/
def State.branch (s : State) (taken : Bool) (rel : Byte) : State :=
  if taken then s.jumpRel (sext8 rel) else s

/-- `jmp rel32` (R90). -/
def execJmpRel32 (rel : Word) (s : State) : Result :=
  .next (s.jumpRel rel)

/-- `js rel8` (R91). -/
def execJsRel8 (rel : Byte) (s : State) : Result :=
  .next (s.branch s.flags.condS rel)

/-- `jz rel8` (R92). -/
def execJzRel8 (rel : Byte) (s : State) : Result :=
  .next (s.branch s.flags.condZ rel)

/-- `jle rel8` (R93). -/
def execJleRel8 (rel : Byte) (s : State) : Result :=
  .next (s.branch s.flags.condLE rel)

end Sys2Proof.Machine
end

