-- ==== Sys2Proof/Machine/Move.lean ====
section
/-! DEFINITION. Data movement (44_data_movement.md R120 to R125): plain copies that touch no flag. -/

namespace Sys2Proof.Machine

/-- `mov rm32, r32` (R120). -/
def execMovRm32R32 (m : RM Reg32) (r : Reg32) (s : State) : Result :=
  s.finish (s.setRM32 m (s.get32 r))

/-- `mov r32, rm32` (R121): the source is read before the destination is written. -/
def execMovR32Rm32 (r : Reg32) (m : RM Reg32) (s : State) : Result :=
  s.finish do
    let v ← s.getRM32 m
    return s.set32 r v

/-- `mov r8, rm8` (R122). -/
def execMovR8Rm8 (r : Reg8) (m : RM Reg8) (s : State) : Result :=
  s.finish do
    let v ← s.getRM8 m
    return s.set8 r v

/-- `mov rm32, imm32` (R123): the ModRM `reg` field is not examined (R67). -/
def execMovRm32Imm32 (m : RM Reg32) (imm : Word) (s : State) : Result :=
  s.finish (s.setRM32 m imm)

/-- `mov r8, imm8` (R124). -/
def execMovR8Imm8 (r : Reg8) (imm : Byte) (s : State) : Result :=
  .next (s.set8 r imm)

/-- `mov r32, imm32` (R125). -/
def execMovR32Imm32 (r : Reg32) (imm : Word) (s : State) : Result :=
  .next (s.set32 r imm)

end Sys2Proof.Machine
end

