-- ==== Sys2Proof/Machine/Stack.lean ====
section
/-! DEFINITION. Stack and frame, call and return (46_stack_frame.md R135 to R140). -/

namespace Sys2Proof.Machine

/-- `push r32` (R135): the register is read before esp is lowered. -/
def execPushR32 (r : Reg32) (s : State) : Result :=
  s.finish (s.push32 (s.get32 r))

/-- `pop r32` (R136): the register is written after esp is raised. -/
def execPopR32 (r : Reg32) (s : State) : Result :=
  s.finish do
    let (v, t) ← s.pop32
    return t.set32 r v

/-- `push imm8` (R137): the byte is sign-extended. -/
def execPushImm8 (imm : Byte) (s : State) : Result :=
  s.finish (s.push32 (sext8 imm))

/-- `call rel32` (R138): the address of the next instruction is pushed, then the offset is added to it. -/
def execCallRel32 (rel : Word) (s : State) : Result :=
  s.finish do
    let t ← s.push32 s.eip
    return t.jumpRel rel

/-- `ret` (R139). -/
def execRet (s : State) : Result :=
  s.finish do
    let (v, t) ← s.pop32
    return t.setEip v

/-- `leave` (R140): esp takes ebp, then ebp is popped. -/
def execLeave (s : State) : Result :=
  s.finish do
    let (v, t) ← (s.set32 .esp (s.get32 .ebp)).pop32
    return t.set32 .ebp v

end Sys2Proof.Machine
end

