-- ==== Sys2Proof/Machine/Dispatch.lean ====
section
/-! DEFINITION. One arm per instruction form, in the order of the opcode table (30_encoding.md R66). -/

namespace Sys2Proof.Machine

/-- The effect of a decoded instruction on a state whose `eip` is past the instruction (40_core_step_and_flag_alu.md
R82). -/
def exec (i : Instr) (s : State) : Host.Outcome State Fault Refusal :=
  match i with
  | .jmpRel32 rel => Sys2Proof.Machine.execJmpRel32 rel s
  | .jsRel8 rel => Sys2Proof.Machine.execJsRel8 rel s
  | .jzRel8 rel => Sys2Proof.Machine.execJzRel8 rel s
  | .jleRel8 rel => Sys2Proof.Machine.execJleRel8 rel s
  | .cmpAlImm8 imm => Sys2Proof.Machine.execCmpAlImm8 imm s
  | .cmpR32Rm32 r m => Sys2Proof.Machine.execCmpR32Rm32 r m s
  | .cmpRm32Imm8 m imm => Sys2Proof.Machine.execCmpRm32Imm8 m imm s
  | .addRm32R32 m r => Sys2Proof.Machine.execAddRm32R32 m r s
  | .addRm32Imm8 m imm => Sys2Proof.Machine.execAddRm32Imm8 m imm s
  | .subRm32Imm8 m imm => Sys2Proof.Machine.execSubRm32Imm8 m imm s
  | .movRm32R32 m r => Sys2Proof.Machine.execMovRm32R32 m r s
  | .movR32Rm32 r m => Sys2Proof.Machine.execMovR32Rm32 r m s
  | .movR8Rm8 r m => Sys2Proof.Machine.execMovR8Rm8 r m s
  | .movRm32Imm32 _ m imm => Sys2Proof.Machine.execMovRm32Imm32 m imm s
  | .movR8Imm8 r imm => Sys2Proof.Machine.execMovR8Imm8 r imm s
  | .movR32Imm32 r imm => Sys2Proof.Machine.execMovR32Imm32 r imm s
  | .incRm32 m => Sys2Proof.Machine.execIncRm32 m s
  | .incR32 r => Sys2Proof.Machine.execIncR32 r s
  | .pushR32 r => Sys2Proof.Machine.execPushR32 r s
  | .popR32 r => Sys2Proof.Machine.execPopR32 r s
  | .pushImm8 imm => Sys2Proof.Machine.execPushImm8 imm s
  | .callRel32 rel => Sys2Proof.Machine.execCallRel32 rel s
  | .ret => Sys2Proof.Machine.execRet s
  | .leave => Sys2Proof.Machine.execLeave s
  | .negRm32 m => Sys2Proof.Machine.execNegRm32 m s
  | .intImm8 vec => Sys2Proof.Machine.execIntImm8 vec s
  | .inAlDx => Sys2Proof.Machine.execInAlDx s
  | .outDxAl => Sys2Proof.Machine.execOutDxAl s

end Sys2Proof.Machine
end

