-- ==== Sys2Proof/WellFormed.lean ====
section
/-! DEFINITION. Which terms of `Instr` are instructions: those whose ModRM operand has an encoding (30_encoding.md R57 table, R58). -/

namespace Sys2Proof

/-- R58: with mod other than 11, `rm` = 100 (base ESP) is no addressing mode, and with mod = 00 `rm` = 101
(base EBP, no displacement) is none either. Register operands are always well formed. -/
def RM.wf {R : Type} : RM R → Bool
  | .reg _ => true
  | .mem .esp _ => false
  | .mem .ebp .none => false
  | .mem _ _ => true

/-- A well-formed instruction: its ModRM operand, where it has one, is one of the supported patterns. All
other fields take every value of their type. -/
def Instr.wf : Instr → Bool
  | .cmpR32Rm32 _ m => m.wf
  | .cmpRm32Imm8 m _ => m.wf
  | .addRm32R32 m _ => m.wf
  | .addRm32Imm8 m _ => m.wf
  | .subRm32Imm8 m _ => m.wf
  | .movRm32R32 m _ => m.wf
  | .movR32Rm32 _ m => m.wf
  | .movR8Rm8 _ m => m.wf
  | .movRm32Imm32 _ m _ => m.wf
  | .incRm32 m => m.wf
  | .negRm32 m => m.wf
  | .jmpRel32 _ => true
  | .jsRel8 _ => true
  | .jzRel8 _ => true
  | .jleRel8 _ => true
  | .cmpAlImm8 _ => true
  | .movR8Imm8 _ _ => true
  | .movR32Imm32 _ _ => true
  | .incR32 _ => true
  | .pushR32 _ => true
  | .popR32 _ => true
  | .pushImm8 _ => true
  | .callRel32 _ => true
  | .ret => true
  | .leave => true
  | .intImm8 _ => true
  | .inAlDx => true
  | .outDxAl => true

end Sys2Proof
end

