-- ==== Sys2Proof/Decode.lean ====
section
/-! DEFINITION. The decoder, total on any bytes, rejecting by name in the order of 60_exceptions.md R165, and the encoder, both written from the formats and the opcode map of 30_encoding.md (R50 to R68). -/

namespace Sys2Proof

/-! ### Register fields (R53, R55) -/

/-- The 32-bit register with a 3-bit index (10_state.md R10). -/
def Reg32.ofCode (c : BitVec 3) : Reg32 :=
  match c.toNat with
  | 0 => .eax
  | 1 => .ecx
  | 2 => .edx
  | 3 => .ebx
  | 4 => .esp
  | 5 => .ebp
  | 6 => .esi
  | _ => .edi

/-- The index of a 32-bit register (R10). -/
def Reg32.code : Reg32 → BitVec 3
  | .eax => 0
  | .ecx => 1
  | .edx => 2
  | .ebx => 3
  | .esp => 4
  | .ebp => 5
  | .esi => 6
  | .edi => 7

/-- The 8-bit view with a 3-bit index (10_state.md R12). -/
def Reg8.ofCode (c : BitVec 3) : Reg8 :=
  match c.toNat with
  | 0 => .al
  | 1 => .cl
  | 2 => .dl
  | 3 => .bl
  | 4 => .ah
  | 5 => .ch
  | 6 => .dh
  | _ => .bh

/-- The index of an 8-bit view (R12). -/
def Reg8.code : Reg8 → BitVec 3
  | .al => 0
  | .cl => 1
  | .dl => 2
  | .bl => 3
  | .ah => 4
  | .ch => 5
  | .dh => 6
  | .bh => 7

/-- The register meant by the index of an `rm` operand; the base of a memory operand is 32-bit whatever the
operand's own width (R60). -/
def RM.map {A B : Type} (f : A → B) : RM A → RM B
  | .reg r => .reg (f r)
  | .mem base d => .mem base d

/-! ### Rejections -/

/-- Why the decoder refuses a byte sequence (R65). -/
inductive DecodeError where
  /-- A fetch of `n` bytes at `offset` from the first byte runs past the bytes there are (20_memory.md R38). -/
  | endOfStream (offset n : Nat)
  /-- The opcode byte is none of the 61 (R68). -/
  | unknownOpcode (op : Byte)
  /-- The ModRM byte has a pattern of R58. -/
  | unsupportedAddressing (modrm : Byte)
  /-- The ModRM `reg` field of group 0x83, 0xFF or 0xF7 is unmapped (R64). -/
  | unmappedGroup (op : Byte) (reg : BitVec 3)
  deriving DecidableEq, Repr

/-! ### Fetch primitives (20_memory.md R38, R39)

The decoder's input is the bytes from `eip` up that lie in memory and, where memory fills the address space, those
from address 0 up, at which `eip` goes on after 0xFFFFFFFF (10_state.md R15). -/

/-- The fetch cursor (10_state.md R15): how many bytes are consumed, the bytes that remain below the end of memory,
and those that follow once `eip` has wrapped to 0. -/
structure Cursor where
  pos : Nat
  rest : List Byte
  wrapped : List Byte
  deriving DecidableEq, Repr

/-- The cursor after a fetch: `eip` is modulo 2^32, so past the last address it goes on at address 0 (R15, R38). -/
def Cursor.next (pos : Nat) (rest wrapped : List Byte) : Cursor :=
  match rest with
  | [] => ⟨pos, wrapped, []⟩
  | b :: bs => ⟨pos, b :: bs, wrapped⟩

/-- `FetchN` for n bytes: their little-endian value, or `EndOfStream` with nothing consumed. The bounds check is on the
bytes of one fetch, so no fetch reads on both sides of a wrap (R38). -/
def fetchLE (n : Nat) (c : Cursor) : Except DecodeError (Nat × Cursor) :=
  if c.rest.length < n then .error (.endOfStream c.pos n)
  else .ok (leNat (c.rest.take n), Cursor.next (c.pos + n) (c.rest.drop n) c.wrapped)

/-- `Fetch8` (R38). -/
def fetch8 (c : Cursor) : Except DecodeError (Byte × Cursor) := do
  let (v, c') ← fetchLE 1 c
  return (BitVec.ofNat 8 v, c')

/-- `Fetch16` (R38): the core has it and no instruction uses it (R36, D28). -/
def fetch16 (c : Cursor) : Except DecodeError (BitVec 16 × Cursor) := do
  let (v, c') ← fetchLE 2 c
  return (BitVec.ofNat 16 v, c')

/-- `Fetch32`, and `FetchS32`, which returns the same 32 bits (R38, R39). -/
def fetch32 (c : Cursor) : Except DecodeError (Word × Cursor) := do
  let (v, c') ← fetchLE 4 c
  return (BitVec.ofNat 32 v, c')

/-! ### The ModRM byte (R54 to R58) -/

/-- `mod`, bits 7:6 (R55). -/
def modField (b : Byte) : BitVec 2 :=
  b.extractLsb' 6 2

/-- `reg`, bits 5:3 (R55). -/
def regField (b : Byte) : BitVec 3 :=
  b.extractLsb' 3 3

/-- `rm`, bits 2:0 (R55); the same bits of an opcode byte name its register (R53). -/
def rmField (b : Byte) : BitVec 3 :=
  b.extractLsb' 0 3

/-- What `Resolve` finds: the `reg` field and the `rm` operand, its register still an index. -/
structure ModRM where
  reg : BitVec 3
  rm : RM (BitVec 3)
  deriving DecidableEq, Repr

/-- `Resolve()` less the address computation (R56): the ModRM byte, the refusal of R58 before any displacement
byte is fetched, then the displacement of 0, 1 or 4 bytes. -/
def resolve (c : Cursor) : Except DecodeError (ModRM × Cursor) := do
  let (b, c1) ← fetch8 c
  if modField b = 3 then
    return (⟨regField b, .reg (rmField b)⟩, c1)
  else if rmField b = 4 then
    .error (.unsupportedAddressing b)
  else if modField b = 0 ∧ rmField b = 5 then
    .error (.unsupportedAddressing b)
  else if modField b = 0 then
    return (⟨regField b, .mem (Reg32.ofCode (rmField b)) .none⟩, c1)
  else if modField b = 1 then do
    let (d, c2) ← fetch8 c1
    return (⟨regField b, .mem (Reg32.ofCode (rmField b)) (.disp8 d)⟩, c2)
  else do
    let (d, c2) ← fetch32 c1
    return (⟨regField b, .mem (Reg32.ofCode (rmField b)) (.disp32 d)⟩, c2)

/-! ### Dispatch on the opcode byte (R66, R81) -/

/-- The handler that an opcode byte selects: one of the forms, or one of the three groups of R64. -/
inductive Handler where
  | jmpRel32 | jsRel8 | jzRel8 | jleRel8
  | cmpAlImm8 | cmpR32Rm32
  | group83
  | addRm32R32
  | movRm32R32 | movR32Rm32 | movR8Rm8 | movRm32Imm32
  | movR8Imm8 (r : Reg8) | movR32Imm32 (r : Reg32)
  | groupFF
  | incR32 (r : Reg32) | pushR32 (r : Reg32) | popR32 (r : Reg32)
  | pushImm8 | callRel32 | ret | leave
  | groupF7
  | intImm8 | inAlDx | outDxAl
  deriving DecidableEq, Repr

/-- The handlers of the five forms whose register is the low three bits of the opcode, by the opcode's high five
bits (R53). -/
def dispatchRange (op : Byte) : Option Handler :=
  match (op.extractLsb' 3 5).toNat with
  | 0x08 => some (.incR32 (Reg32.ofCode (rmField op)))
  | 0x0A => some (.pushR32 (Reg32.ofCode (rmField op)))
  | 0x0B => some (.popR32 (Reg32.ofCode (rmField op)))
  | 0x16 => some (.movR8Imm8 (Reg8.ofCode (rmField op)))
  | 0x17 => some (.movR32Imm32 (Reg32.ofCode (rmField op)))
  | _ => none

/-- The opcode map (R66): the handler of each of the 61 opcode bytes, none for the other 195 (R68). -/
def dispatch (op : Byte) : Option Handler :=
  match op.toNat with
  | 0x01 => some .addRm32R32
  | 0x3B => some .cmpR32Rm32
  | 0x3C => some .cmpAlImm8
  | 0x6A => some .pushImm8
  | 0x74 => some .jzRel8
  | 0x78 => some .jsRel8
  | 0x7E => some .jleRel8
  | 0x83 => some .group83
  | 0x89 => some .movRm32R32
  | 0x8A => some .movR8Rm8
  | 0x8B => some .movR32Rm32
  | 0xC3 => some .ret
  | 0xC7 => some .movRm32Imm32
  | 0xC9 => some .leave
  | 0xCD => some .intImm8
  | 0xE8 => some .callRel32
  | 0xE9 => some .jmpRel32
  | 0xEC => some .inAlDx
  | 0xEE => some .outDxAl
  | 0xF7 => some .groupF7
  | 0xFF => some .groupFF
  | _ => dispatchRange op

/-! ### The bytes after the opcode byte -/

/-- Formats M and M-I32 and the groups begin with `Resolve`; `k` has the ModRM record and the rest. -/
def withModRM (c : Cursor) (k : ModRM → Cursor → Except DecodeError (Instr × Cursor)) :
    Except DecodeError (Instr × Cursor) := do
  let (m, c') ← resolve c
  k m c'

/-- A last byte (imm8, rel8 or the vector). -/
def withByte (c : Cursor) (k : Byte → Instr) : Except DecodeError (Instr × Cursor) := do
  let (b, c') ← fetch8 c
  return (k b, c')

/-- Four last bytes (imm32 or rel32). -/
def withWord (c : Cursor) (k : Word → Instr) : Except DecodeError (Instr × Cursor) := do
  let (w, c') ← fetch32 c
  return (k w, c')

/-- The `rm` operand as a 32-bit operand. -/
def ModRM.rm32 (m : ModRM) : RM Reg32 :=
  m.rm.map Reg32.ofCode

/-- The `rm` operand as an 8-bit operand (R60). -/
def ModRM.rm8 (m : ModRM) : RM Reg8 :=
  m.rm.map Reg8.ofCode

/-- Group 0x83 (R64): 0 add, 5 sub, 7 cmp. The group is checked before the immediate is fetched (R63). -/
def decodeGroup83 (m : ModRM) (c : Cursor) : Except DecodeError (Instr × Cursor) :=
  match m.reg.toNat with
  | 0 => withByte c (.addRm32Imm8 m.rm32)
  | 5 => withByte c (.subRm32Imm8 m.rm32)
  | 7 => withByte c (.cmpRm32Imm8 m.rm32)
  | _ => .error (.unmappedGroup 0x83 m.reg)

/-- Group 0xFF (R64): 0 inc. -/
def decodeGroupFF (m : ModRM) (c : Cursor) : Except DecodeError (Instr × Cursor) :=
  if m.reg = 0 then .ok (.incRm32 m.rm32, c) else .error (.unmappedGroup 0xFF m.reg)

/-- Group 0xF7 (R64): 3 neg. -/
def decodeGroupF7 (m : ModRM) (c : Cursor) : Except DecodeError (Instr × Cursor) :=
  if m.reg = 3 then .ok (.negRm32 m.rm32, c) else .error (.unmappedGroup 0xF7 m.reg)

/-- The encoding bytes that follow the opcode byte, by handler (R51, R63). -/
def decodeBody (h : Handler) (c : Cursor) : Except DecodeError (Instr × Cursor) :=
  match h with
  | .jmpRel32 => withWord c .jmpRel32
  | .jsRel8 => withByte c .jsRel8
  | .jzRel8 => withByte c .jzRel8
  | .jleRel8 => withByte c .jleRel8
  | .cmpAlImm8 => withByte c .cmpAlImm8
  | .cmpR32Rm32 => withModRM c fun m c' => .ok (.cmpR32Rm32 (Reg32.ofCode m.reg) m.rm32, c')
  | .group83 => withModRM c decodeGroup83
  | .addRm32R32 => withModRM c fun m c' => .ok (.addRm32R32 m.rm32 (Reg32.ofCode m.reg), c')
  | .movRm32R32 => withModRM c fun m c' => .ok (.movRm32R32 m.rm32 (Reg32.ofCode m.reg), c')
  | .movR32Rm32 => withModRM c fun m c' => .ok (.movR32Rm32 (Reg32.ofCode m.reg) m.rm32, c')
  | .movR8Rm8 => withModRM c fun m c' => .ok (.movR8Rm8 (Reg8.ofCode m.reg) m.rm8, c')
  | .movRm32Imm32 => withModRM c fun m c' => withWord c' (.movRm32Imm32 m.reg m.rm32)
  | .movR8Imm8 r => withByte c (.movR8Imm8 r)
  | .movR32Imm32 r => withWord c (.movR32Imm32 r)
  | .groupFF => withModRM c decodeGroupFF
  | .incR32 r => .ok (.incR32 r, c)
  | .pushR32 r => .ok (.pushR32 r, c)
  | .popR32 r => .ok (.popR32 r, c)
  | .pushImm8 => withByte c .pushImm8
  | .callRel32 => withWord c .callRel32
  | .ret => .ok (.ret, c)
  | .leave => .ok (.leave, c)
  | .groupF7 => withModRM c decodeGroupF7
  | .intImm8 => withByte c .intImm8
  | .inAlDx => .ok (.inAlDx, c)
  | .outDxAl => .ok (.outDxAl, c)

/-- The decoder (R65): the instruction that the bytes at `eip` begin with and its length in bytes, or the first of the
rejections in the order of R165. -/
def decodeFrom (rest wrapped : List Byte) : Except DecodeError (Instr × Nat) := do
  let (op, c) ← fetch8 ⟨0, rest, wrapped⟩
  match dispatch op with
  | none => .error (.unknownOpcode op)
  | some h => do
    let (i, c') ← decodeBody h c
    return (i, c'.pos)

/-- The decoder on a byte sequence alone. -/
def decode (bytes : List Byte) : Except DecodeError (Instr × Nat) :=
  decodeFrom bytes []

/-! ### The encoder (R51, R55, R66) -/

/-- A ModRM byte from its three fields. -/
def modRMByte (mod : BitVec 2) (reg rm : BitVec 3) : Byte :=
  mod ++ reg ++ rm

/-- The ModRM byte and the displacement bytes of an operand, its register given by `code`. -/
def encodeRM {R : Type} (code : R → BitVec 3) (reg : BitVec 3) : RM R → List Byte
  | .reg r => [modRMByte 3 reg (code r)]
  | .mem base .none => [modRMByte 0 reg base.code]
  | .mem base (.disp8 d) => [modRMByte 1 reg base.code, d]
  | .mem base (.disp32 d) => modRMByte 2 reg base.code :: wordBytes d

/-- An opcode byte with its register in the low three bits (R53). -/
def opcodeReg (base : Byte) (r : BitVec 3) : Byte :=
  base ||| r.setWidth 8

/-- The bytes of an instruction, the opcode byte first (R50, R66). -/
def encode : Instr → List Byte
  | .jmpRel32 rel => 0xE9 :: wordBytes rel
  | .jsRel8 rel => [0x78, rel]
  | .jzRel8 rel => [0x74, rel]
  | .jleRel8 rel => [0x7E, rel]
  | .cmpAlImm8 imm => [0x3C, imm]
  | .cmpR32Rm32 r m => 0x3B :: encodeRM Reg32.code r.code m
  | .cmpRm32Imm8 m imm => 0x83 :: (encodeRM Reg32.code 7 m ++ [imm])
  | .addRm32R32 m r => 0x01 :: encodeRM Reg32.code r.code m
  | .addRm32Imm8 m imm => 0x83 :: (encodeRM Reg32.code 0 m ++ [imm])
  | .subRm32Imm8 m imm => 0x83 :: (encodeRM Reg32.code 5 m ++ [imm])
  | .movRm32R32 m r => 0x89 :: encodeRM Reg32.code r.code m
  | .movR32Rm32 r m => 0x8B :: encodeRM Reg32.code r.code m
  | .movR8Rm8 r m => 0x8A :: encodeRM Reg8.code r.code m
  | .movRm32Imm32 g m imm => 0xC7 :: (encodeRM Reg32.code g m ++ wordBytes imm)
  | .movR8Imm8 r imm => [opcodeReg 0xB0 r.code, imm]
  | .movR32Imm32 r imm => opcodeReg 0xB8 r.code :: wordBytes imm
  | .incRm32 m => 0xFF :: encodeRM Reg32.code 0 m
  | .incR32 r => [opcodeReg 0x40 r.code]
  | .pushR32 r => [opcodeReg 0x50 r.code]
  | .popR32 r => [opcodeReg 0x58 r.code]
  | .pushImm8 imm => [0x6A, imm]
  | .callRel32 rel => 0xE8 :: wordBytes rel
  | .ret => [0xC3]
  | .leave => [0xC9]
  | .negRm32 m => 0xF7 :: encodeRM Reg32.code 3 m
  | .intImm8 vec => [0xCD, vec]
  | .inAlDx => [0xEC]
  | .outDxAl => [0xEE]

/-- The displacement length d of an operand in bytes (R51, R56). -/
def RM.dispLength {R : Type} : RM R → Nat
  | .reg _ => 0
  | .mem _ .none => 0
  | .mem _ (.disp8 _) => 1
  | .mem _ (.disp32 _) => 4

/-- The length of an instruction in bytes by its format (R51 table, R65). -/
def Instr.length : Instr → Nat
  | .jmpRel32 _ => 5
  | .jsRel8 _ => 2
  | .jzRel8 _ => 2
  | .jleRel8 _ => 2
  | .cmpAlImm8 _ => 2
  | .cmpR32Rm32 _ m => 2 + m.dispLength
  | .cmpRm32Imm8 m _ => 3 + m.dispLength
  | .addRm32R32 m _ => 2 + m.dispLength
  | .addRm32Imm8 m _ => 3 + m.dispLength
  | .subRm32Imm8 m _ => 3 + m.dispLength
  | .movRm32R32 m _ => 2 + m.dispLength
  | .movR32Rm32 _ m => 2 + m.dispLength
  | .movR8Rm8 _ m => 2 + m.dispLength
  | .movRm32Imm32 _ m _ => 6 + m.dispLength
  | .movR8Imm8 _ _ => 2
  | .movR32Imm32 _ _ => 5
  | .incRm32 m => 2 + m.dispLength
  | .incR32 _ => 1
  | .pushR32 _ => 1
  | .popR32 _ => 1
  | .pushImm8 _ => 2
  | .callRel32 _ => 5
  | .ret => 1
  | .leave => 1
  | .negRm32 m => 2 + m.dispLength
  | .intImm8 _ => 2
  | .inAlDx => 1
  | .outDxAl => 1

/-- The longest instruction, in bytes (R50). -/
def maxLength : Nat :=
  10

/-! ### Words numbered as spec/opcode_table.json numbers them -/

/-- The bytes of an instruction whose bits are `w`, padded with zero bytes to the longest instruction. The
table's number is `(byte0 << 8) | byte1`: the opcode byte is bits 15:8 and the byte after it bits 7:0. Bits that
count on above 15 are the later bytes, the third byte first; a number of at most 8 bits is the opcode byte alone
(notes/assumptions/12.md). -/
def tableBytes (nbits w : Nat) : List Byte :=
  if nbits ≤ 8 then
    BitVec.ofNat 8 (w % 2 ^ nbits) :: leBytes 9 0
  else
    BitVec.ofNat 8 (w % 2 ^ nbits / 256) :: BitVec.ofNat 8 (w % 2 ^ nbits) :: leBytes 8 (w % 2 ^ nbits / 65536)

/-- The instruction that the decoder reads from an instruction with these bits, none where it refuses. -/
def decodeTableWord (nbits w : Nat) : Option Instr :=
  match decode (tableBytes nbits w) with
  | .ok (i, _) => some i
  | .error _ => none

end Sys2Proof
end

