-- ==== Sys2Proof/Machine/Fetch.lean ====
section
/-! DEFINITION. What surrounds the meaning of an instruction in a step: the bytes at `eip`, the advance past the instruction, the stops of fetch and decode, and the placing of a word for the host (20_memory.md R37 to R39, 40_core_step_and_flag_alu.md R81, 60_exceptions.md R164, R165). -/

namespace Sys2Proof.Machine

/-- The bytes at `eip` that lie in memory, up to the longest instruction (R37, R38, R50). -/
def State.fetchWindow (s : State) : List Byte :=
  s.mem.readBytes s.eip.toNat (min maxLength (s.cfg.memSize - s.eip.toNat))

/-- The bytes that fetch goes on with when `eip` wraps past 0xFFFFFFFF: those at address 0 and up where memory fills
the address space, none where memory ends earlier (10_state.md R15, R38; notes/assumptions/7.md). -/
def State.wrapWindow (s : State) : List Byte :=
  if s.cfg.memSize = 4294967296 then s.mem.readBytes 0 maxLength else []

/-- The instruction at `eip` and its length, or why there is none (30_encoding.md R65). -/
def State.decodeNext (s : State) : Except DecodeError (Instr × Nat) :=
  decodeFrom s.fetchWindow s.wrapWindow

/-- `eip` past an instruction of `n` bytes, modulo 2^32 (10_state.md R15). -/
def State.advance (s : State) (n : Nat) : State :=
  s.setEip (s.eip + BitVec.ofNat 32 n)

/-- The error that a rejection of the bytes at `eip` raises (R165). -/
def decodeStop (eip : Word) : DecodeError → StopError
  | .endOfStream offset n => .endOfStream (eip + BitVec.ofNat 32 offset) n
  | .unknownOpcode op => .unimplementedOpcode op none
  | .unsupportedAddressing b => .unimplementedAddressingMode b
  | .unmappedGroup op reg => .unimplementedOpcode op (some reg)

/-- Whether a rejection is raised at dispatch, before any handler runs (R81, R164): the opcode byte is outside memory
or unknown. -/
def DecodeError.atDispatch : DecodeError → Bool
  | .endOfStream offset _ => offset == 0
  | .unknownOpcode _ => true
  | .unsupportedAddressing _ => false
  | .unmappedGroup _ _ => false

/-- The stop of a rejected fetch: precise at dispatch, else inside the handler (R164). -/
def State.reject (s : State) (e : DecodeError) : State :=
  if DecodeError.atDispatch e then s.stopAtDispatch (decodeStop s.eip e)
  else s.stopInHandler (decodeStop s.eip e)

/-- The state with an instruction's bytes stored where the next step fetches them, at `eip` and past a wrap at address 0,
those that lie in memory, and the core running (notes/assumptions/12.md). -/
def State.placeWord (s : State) (nbits w : Nat) : State :=
  { s with
    mem := (s.mem.writeBytes s.eip.toNat ((tableBytes nbits w).take (s.cfg.memSize - s.eip.toNat))).writeBytes 0
      (if s.cfg.memSize = 4294967296 then (tableBytes nbits w).drop (s.cfg.memSize - s.eip.toNat) else [])
    status := .running }

end Sys2Proof.Machine
end

