-- ==== Sys2Proof/Machine/Step.lean ====
section
/-! DEFINITION. One step of the core: one whole instruction (40_core_step_and_flag_alu.md R80 to R82). -/

namespace Sys2Proof.Machine

/-- `Step()` (R80, R81): a stopped core has no step; a running core fetches and decodes at `eip`, and runs the
instruction with `eip` past it. -/
def step (s : State) : Host.Outcome State Fault Refusal :=
  match s.status with
  | .stopped e => .fault (.halted e)
  | .running =>
    match s.decodeNext with
    | .error e => .next (s.reject e)
    | .ok (i, n) => exec i (s.advance n)

/-- The host's way to place one instruction where `step` fetches next. -/
def State.withFetchWord (s : State) (nbits w : Nat) : State :=
  s.placeWord nbits w

end Sys2Proof.Machine
end

