-- ==== Sys2Proof/Safety.lean ====
section
/-! DEFINITION. The terms that claims about runs use: a running core, the ways a run ends, and the invariant of the state. -/

namespace Sys2Proof.Machine

/-- The core runs (R19, R80). -/
def State.isRunning (s : State) : Prop :=
  s.status = .running

/-- The core has stopped with an error of this kind (R160). -/
def State.stoppedWith (s : State) (k : StopKind) : Prop :=
  ∃ e, s.status = .stopped e ∧ e.kind = k

/-- The invariant of the state: memory in canonical form, every listed byte at an address that exists
(20_memory.md R30), and a memory size that R6 admits. -/
structure State.Inv (s : State) : Prop where
  wf : Memory.wf s.mem
  inside : ∀ c ∈ s.mem, c.1 < s.cfg.memSize
  size : 1 ≤ s.cfg.memSize ∧ s.cfg.memSize ≤ 4294967296

/-- States that a run of zero or more steps leads to. -/
inductive Reaches : State → State → Prop where
  | here (s : State) : Reaches s s
  | step {s t u : State} (first : Machine.step s = .next t) (rest : Reaches t u) : Reaches s u

/-- The end of a run that a claim may take as the intended one (40_core_step_and_flag_alu.md R87, 60_exceptions.md
R175, D30): a stop of kind `k` with `eip` at `pc`. The hardware calls no stop a success. -/
def EndsAt (s : State) (k : StopKind) (pc : Word) : Prop :=
  ∃ t, Reaches s t ∧ t.stoppedWith k ∧ t.eip = pc

/-- A run that the stops never end: every state it leads to is running. A core that waits for input in it is stuck, not
stopped (60_exceptions.md R174). -/
def NeverStops (s : State) : Prop :=
  ∀ t, Reaches s t → t.isRunning

end Sys2Proof.Machine
end

