-- ==== Sys2Proof/Certificates/Slice0/Obligations.lean ====
section
/-! DEFINITION. The statements for the provers, with the terms they are said in. -/

namespace Sys2Proof.Claims

open Sys2Proof.Machine

/-! ### Terms about memory -/

/-- An access of `n` bytes at `a` lies in memory (20_memory.md R31). -/
def Fits (s : State) (a : Word) (n : Nat) : Prop :=
  a.toNat + n ≤ s.cfg.memSize

/-- The 32-bit value at byte address `a`: the byte at the lowest address is the least significant (R32). -/
def wordAt (s : State) (a : Nat) : Word :=
  s.byteAt (a + 3) ++ s.byteAt (a + 2) ++ s.byteAt (a + 1) ++ s.byteAt a

/-- `t` is `u` but for memory, and its memory is that of `u` but for the word `v` stored at `a`. -/
def Stores (u t : State) (a : Nat) (v : Word) : Prop :=
  t = { u with mem := t.mem } ∧ wordAt t a = v ∧ ∀ x, x < a ∨ a + 4 ≤ x → t.byteAt x = u.byteAt x

/-- The bytes at `eip` and up, all of them in memory. -/
def BytesAtEip (s : State) (bs : List Byte) : Prop :=
  s.eip.toNat + bs.length ≤ s.cfg.memSize ∧ ∀ k (h : k < bs.length), s.byteAt (s.eip.toNat + k) = bs[k]

/-! ### Terms about operands (30_encoding.md R57, R59, R60) -/

/-- The value of a 32-bit operand. -/
def operand32 (s : State) : RM Reg32 → Word
  | .reg r => s.get32 r
  | .mem base d => wordAt s (s.effAddr base d).toNat

/-- A 32-bit operand can be accessed: it is a register, or its four bytes lie in memory. -/
def Accessible32 (s : State) : RM Reg32 → Prop
  | .reg _ => True
  | .mem base d => Fits s (s.effAddr base d) 4

/-- The value of an 8-bit operand. -/
def operand8 (s : State) : RM Reg8 → Byte
  | .reg r => s.get8 r
  | .mem base d => s.byteAt (s.effAddr base d).toNat

/-- An 8-bit operand can be accessed. -/
def Accessible8 (s : State) : RM Reg8 → Prop
  | .reg _ => True
  | .mem base d => Fits s (s.effAddr base d) 1

/-- `t` is `u` with `v` written to a 32-bit operand, and nothing else changed. -/
def WritesOperand (u t : State) (m : RM Reg32) (v : Word) : Prop :=
  match m with
  | .reg r => t = u.set32 r v
  | .mem base d => Stores u t (u.effAddr base d).toNat v

/-- The memory address of an operand, where it has one. -/
def operandAddr {R : Type} (s : State) : RM R → Option Word
  | .reg _ => none
  | .mem base d => some (s.effAddr base d)

/-- The data access that an instruction makes at `s`, where it makes one: its address and width (20_memory.md R36).
A read-modify-write form reads and writes the same bytes. -/
def dataAccess (s : State) : Instr → Option (Word × Nat)
  | .cmpR32Rm32 _ m => (operandAddr s m).map (·, 4)
  | .cmpRm32Imm8 m _ => (operandAddr s m).map (·, 4)
  | .addRm32R32 m _ => (operandAddr s m).map (·, 4)
  | .addRm32Imm8 m _ => (operandAddr s m).map (·, 4)
  | .subRm32Imm8 m _ => (operandAddr s m).map (·, 4)
  | .movRm32R32 m _ => (operandAddr s m).map (·, 4)
  | .movR32Rm32 _ m => (operandAddr s m).map (·, 4)
  | .movR8Rm8 _ m => (operandAddr s m).map (·, 1)
  | .movRm32Imm32 _ m _ => (operandAddr s m).map (·, 4)
  | .incRm32 m => (operandAddr s m).map (·, 4)
  | .negRm32 m => (operandAddr s m).map (·, 4)
  | .pushR32 _ => some (s.get32 .esp - 4, 4)
  | .pushImm8 _ => some (s.get32 .esp - 4, 4)
  | .callRel32 _ => some (s.get32 .esp - 4, 4)
  | .popR32 _ => some (s.get32 .esp, 4)
  | .ret => some (s.get32 .esp, 4)
  | .leave => some (s.get32 .ebp, 4)
  | .jmpRel32 _ => none
  | .jsRel8 _ => none
  | .jzRel8 _ => none
  | .jleRel8 _ => none
  | .cmpAlImm8 _ => none
  | .movR8Imm8 _ _ => none
  | .movR32Imm32 _ _ => none
  | .incR32 _ => none
  | .intImm8 _ => none
  | .inAlDx => none
  | .outDxAl => none

/-- The address of the word that an instruction stores, where its form stores one (R36). -/
def storeAddr (s : State) : Instr → Option Word
  | .addRm32R32 m _ => operandAddr s m
  | .addRm32Imm8 m _ => operandAddr s m
  | .subRm32Imm8 m _ => operandAddr s m
  | .movRm32R32 m _ => operandAddr s m
  | .movRm32Imm32 _ m _ => operandAddr s m
  | .incRm32 m => operandAddr s m
  | .negRm32 m => operandAddr s m
  | .pushR32 _ => some (s.get32 .esp - 4)
  | .pushImm8 _ => some (s.get32 .esp - 4)
  | .callRel32 _ => some (s.get32 .esp - 4)
  | .jmpRel32 _ => none
  | .jsRel8 _ => none
  | .jzRel8 _ => none
  | .jleRel8 _ => none
  | .cmpAlImm8 _ => none
  | .cmpR32Rm32 _ _ => none
  | .cmpRm32Imm8 _ _ => none
  | .movR32Rm32 _ _ => none
  | .movR8Rm8 _ _ => none
  | .movR8Imm8 _ _ => none
  | .movR32Imm32 _ _ => none
  | .incR32 _ => none
  | .popR32 _ => none
  | .ret => none
  | .leave => none
  | .intImm8 _ => none
  | .inAlDx => none
  | .outDxAl => none

/-- The register that an operand is, where it is one. -/
def operandReg : RM Reg32 → List Reg32
  | .reg r => [r]
  | .mem _ _ => []

/-- The registers that an instruction may write: its destination, and those it names implicitly (10_state.md R14). -/
def writtenRegs : Instr → List Reg32
  | .addRm32R32 m _ => operandReg m
  | .addRm32Imm8 m _ => operandReg m
  | .subRm32Imm8 m _ => operandReg m
  | .movRm32R32 m _ => operandReg m
  | .movR32Rm32 r _ => [r]
  | .movR8Rm8 r _ => [owner r]
  | .movRm32Imm32 _ m _ => operandReg m
  | .movR8Imm8 r _ => [owner r]
  | .movR32Imm32 r _ => [r]
  | .incRm32 m => operandReg m
  | .incR32 r => [r]
  | .negRm32 m => operandReg m
  | .pushR32 _ => [.esp]
  | .pushImm8 _ => [.esp]
  | .callRel32 _ => [.esp]
  | .popR32 r => [.esp, r]
  | .ret => [.esp]
  | .leave => [.esp, .ebp]
  | .inAlDx => [.eax]
  | .jmpRel32 _ => []
  | .jsRel8 _ => []
  | .jzRel8 _ => []
  | .jleRel8 _ => []
  | .cmpAlImm8 _ => []
  | .cmpR32Rm32 _ _ => []
  | .cmpRm32Imm8 _ _ => []
  | .intImm8 _ => []
  | .outDxAl => []

/-- Whether an instruction writes the flags (10_state.md R17): the three compares, and `sub` when `SUB_WRITES_FLAGS`. -/
def writesFlags (s : State) : Instr → Bool
  | .cmpAlImm8 _ => true
  | .cmpR32Rm32 _ _ => true
  | .cmpRm32Imm8 _ _ => true
  | .subRm32Imm8 _ _ => s.cfg.subWritesFlags
  | .jmpRel32 _ => false
  | .jsRel8 _ => false
  | .jzRel8 _ => false
  | .jleRel8 _ => false
  | .addRm32R32 _ _ => false
  | .addRm32Imm8 _ _ => false
  | .movRm32R32 _ _ => false
  | .movR32Rm32 _ _ => false
  | .movR8Rm8 _ _ => false
  | .movRm32Imm32 _ _ _ => false
  | .movR8Imm8 _ _ => false
  | .movR32Imm32 _ _ => false
  | .incRm32 _ => false
  | .incR32 _ => false
  | .pushR32 _ => false
  | .popR32 _ => false
  | .pushImm8 _ => false
  | .callRel32 _ => false
  | .ret => false
  | .leave => false
  | .negRm32 _ => false
  | .intImm8 _ => false
  | .inAlDx => false
  | .outDxAl => false

/-! ### Terms about stops -/

/-- A stop raised inside a handler that began in `s` (40_core_step_and_flag_alu.md R82): the error and the kept trace
are fixed, the input supplied and the parameters are not the core's to change, nothing else is said. -/
def StopsInHandler (s t : State) (e : StopError) : Prop :=
  t.status = .stopped e ∧ t.outTrace = s.outTrace ∧ t.portIn = s.portIn ∧ t.cfg = s.cfg

/-- The kinds of error that an instruction's own handler can raise after its bytes are fetched (60_exceptions.md R165,
second table). -/
def mayRaise : Instr → List StopKind
  | .cmpR32Rm32 _ _ => [.outOfBounds]
  | .cmpRm32Imm8 _ _ => [.outOfBounds]
  | .addRm32R32 _ _ => [.outOfBounds]
  | .addRm32Imm8 _ _ => [.outOfBounds]
  | .subRm32Imm8 _ _ => [.outOfBounds, .arithmeticUnderflow]
  | .movRm32R32 _ _ => [.outOfBounds]
  | .movR32Rm32 _ _ => [.outOfBounds]
  | .movR8Rm8 _ _ => [.outOfBounds]
  | .movRm32Imm32 _ _ _ => [.outOfBounds]
  | .incRm32 _ => [.outOfBounds]
  | .negRm32 _ => [.outOfBounds]
  | .pushR32 _ => [.outOfBounds]
  | .pushImm8 _ => [.outOfBounds]
  | .popR32 _ => [.outOfBounds]
  | .callRel32 _ => [.outOfBounds]
  | .ret => [.outOfBounds]
  | .leave => [.outOfBounds]
  | .intImm8 _ => [.unimplementedInterruptVector]
  | .outDxAl => [.unimplementedPort]
  | .jmpRel32 _ => []
  | .jsRel8 _ => []
  | .jzRel8 _ => []
  | .jleRel8 _ => []
  | .cmpAlImm8 _ => []
  | .movR8Imm8 _ _ => []
  | .movR32Imm32 _ _ => []
  | .incR32 _ => []
  | .inAlDx => []

/-! ### Terms about encodings -/

/-- The 61 opcode bytes (30_encoding.md R66). -/
def opcodeBytes : List Nat :=
  [0x01, 0x3B, 0x3C, 0x40, 0x41, 0x42, 0x43, 0x44, 0x45, 0x46, 0x47] ++
  [0x50, 0x51, 0x52, 0x53, 0x54, 0x55, 0x56, 0x57, 0x58, 0x59, 0x5A, 0x5B, 0x5C, 0x5D, 0x5E, 0x5F] ++
  [0x6A, 0x74, 0x78, 0x7E, 0x83, 0x89, 0x8A, 0x8B] ++
  [0xB0, 0xB1, 0xB2, 0xB3, 0xB4, 0xB5, 0xB6, 0xB7, 0xB8, 0xB9, 0xBA, 0xBB, 0xBC, 0xBD, 0xBE, 0xBF] ++
  [0xC3, 0xC7, 0xC9, 0xCD, 0xE8, 0xE9, 0xEC, 0xEE, 0xF7, 0xFF]

/-- The opcode bytes that a ModRM byte follows (R54, R66). -/
def modRMOpcodes : List Nat :=
  [0x01, 0x3B, 0x83, 0x89, 0x8A, 0x8B, 0xC7, 0xF7, 0xFF]

/-- The ModRM patterns without a meaning (R58): `rm` = 100 with mod other than 11, and mod = 00 with `rm` = 101. -/
def Unsupported (b : Byte) : Prop :=
  (b.extractLsb' 6 2 ≠ 3 ∧ b.extractLsb' 0 3 = 4) ∨ (b.extractLsb' 6 2 = 0 ∧ b.extractLsb' 0 3 = 5)

/-- The displacement bytes that follow a ModRM byte (R56, R57 table). -/
def dispBytes (b : Byte) : Nat :=
  if b.extractLsb' 6 2 = 1 then 1 else if b.extractLsb' 6 2 = 2 then 4 else 0

/-- The unmapped slots of the three groups, the slot being bits 5:3 of the ModRM byte (R64). -/
def UnmappedSlot (op b : Byte) : Prop :=
  (op = 0x83 ∧ b.extractLsb' 3 3 ≠ 0 ∧ b.extractLsb' 3 3 ≠ 5 ∧ b.extractLsb' 3 3 ≠ 7) ∨
  (op = 0xFF ∧ b.extractLsb' 3 3 ≠ 0) ∨ (op = 0xF7 ∧ b.extractLsb' 3 3 ≠ 3)

/-! ### Terms about the carry flag -/

/-- A state with another carry flag. -/
def withCarry (s : State) (c : Bool) : State :=
  { s with flags := { s.flags with cf := c } }

/-- An outcome with its carry flag forgotten. -/
def forgetCarry : Result → Result
  | .next t => .next (withCarry t false)
  | .fault f => .fault f
  | .refused r => .refused r

end Sys2Proof.Claims

open Sys2Proof Sys2Proof.Machine Sys2Proof.Claims

/-! ### Encoding and decoding -/

/-- Decode and encode agree: a well-formed instruction's bytes, whatever follows them, decode to it, with the length of
its format (30_encoding.md R50, R51, R65, R66). -/
def Obligations.DecodeInvertsEncode : Prop :=
  ∀ (i : Instr) (rest : List Byte), i.wf = true → decode (encode i ++ rest) = .ok (i, i.length)

/-- The other direction: what decodes is well formed, has the length of its format, and its bytes are the ones the encoder
gives, so no two byte sequences share a decoding and no bit is dropped. -/
def Obligations.EncodeInvertsDecode : Prop :=
  ∀ (bs : List Byte) (i : Instr) (n : Nat), decode bs = .ok (i, n) →
    i.wf = true ∧ n = i.length ∧ bs.take n = encode i

/-- R50: an instruction is a sequence of 1 to 10 bytes; the decoder consumes no byte that is not there. -/
def Obligations.DecodedLengthIsOneToTen : Prop :=
  ∀ (bs : List Byte) (i : Instr) (n : Nat), decode bs = .ok (i, n) → 1 ≤ n ∧ n ≤ 10 ∧ n ≤ bs.length

/-- Words written out from the encodings of R51 and R66, one or more per family. Their opcode bytes E9, 7E, 3B, C7, 8A,
CD and EC, the ModRM layout, and which of 0xFF and 0xF7 holds `inc` and which `neg`, are PRESUMED: general knowledge of
x86 by the spec's own mark (G1 to G3, D10, D20; notes/assumptions/13.md). -/
def Obligations.SampleEncodingsDecode : Prop :=
  decode [0xE9, 0xF5, 0xFF, 0xFF, 0xFF] = .ok (.jmpRel32 0xFFFFFFF5, 5) ∧
  decode [0x7E, 0xF9] = .ok (.jleRel8 0xF9, 2) ∧
  decode [0x3B, 0xCA] = .ok (.cmpR32Rm32 .ecx (.reg .edx), 2) ∧
  decode [0x83, 0x7D, 0x08, 0x00] = .ok (.cmpRm32Imm8 (.mem .ebp (.disp8 8)) 0, 4) ∧
  decode [0x83, 0xE8, 0x02] = .ok (.subRm32Imm8 (.reg .eax) 2, 3) ∧
  decode [0xC7, 0x85, 0x00, 0x01, 0x00, 0x00, 0x78, 0x56, 0x34, 0x12] =
    .ok (.movRm32Imm32 0 (.mem .ebp (.disp32 0x100)) 0x12345678, 10) ∧
  decode [0x8A, 0xE9] = .ok (.movR8Rm8 .ch (.reg .cl), 2) ∧
  decode [0xFF, 0x45, 0xFC] = .ok (.incRm32 (.mem .ebp (.disp8 0xFC)), 3) ∧
  decode [0x5C] = .ok (.popR32 .esp, 1) ∧
  decode [0xF7, 0x5D, 0xFC] = .ok (.negRm32 (.mem .ebp (.disp8 0xFC)), 3) ∧
  decode [0xCD, 0x10] = .ok (.intImm8 0x10, 2) ∧
  decode [0xEC] = .ok (.inAlDx, 1)

/-! ### The step -/

/-- A step runs the decoded instruction: with `eip` past its bytes, it is `exec` of it
(40_core_step_and_flag_alu.md R81, R82). -/
def Obligations.StepRunsTheDecodedInstruction : Prop :=
  ∀ (s : State) (i : Instr) (n : Nat), s.status = .running → s.decodeNext = .ok (i, n) →
    step s = exec i { s with eip := s.eip + BitVec.ofNat 32 n }

/-- A step runs the instruction whose encoding lies in memory at `eip`, whatever lies around it. -/
def Obligations.StepRunsTheInstructionAtEip : Prop :=
  ∀ (s : State) (i : Instr), s.status = .running → i.wf = true → BytesAtEip s (encode i) →
    step s = exec i { s with eip := s.eip + BitVec.ofNat 32 i.length }

/-- R175: a stop is final; once `Stopped`, the core has no step, so no rule clears the status. -/
def Obligations.StoppedCoreHasNoStep : Prop :=
  ∀ (s : State) (e : StopError), s.status = .stopped e → step s = .fault (.halted e)

/-- R37, R81: an opcode byte outside memory stops the core with `EndOfStream` (the spec's decision D7) at dispatch, and
nothing else changes. -/
def Obligations.FetchOutsideMemoryStopsPrecisely : Prop :=
  ∀ s : State, s.status = .running → s.cfg.memSize ≤ s.eip.toNat →
    step s = .next { s with status := .stopped (.endOfStream s.eip 1) }

/-- R68, R81: each of the 195 bytes that are no opcode stops the core at dispatch, and nothing else changes. Which bytes
are opcodes is in part PRESUMED (notes/assumptions/13.md). -/
def Obligations.UnknownOpcodeStopsPrecisely : Prop :=
  ∀ s : State, s.status = .running → s.eip.toNat < s.cfg.memSize →
    (s.byteAt s.eip.toNat).toNat ∉ opcodeBytes →
    step s = .next { s with status := .stopped (.unimplementedOpcode (s.byteAt s.eip.toNat) none) }

/-- R58, R54: a ModRM byte with a pattern that the spec's decision D11 refuses stops the core, for every opcode that a
ModRM byte follows and whatever lies after it. The opcode bytes and the places of mod and rm are PRESUMED
(notes/assumptions/13.md). -/
def Obligations.UnsupportedAddressingModeStops : Prop :=
  ∀ (s : State) (op b : Byte), s.status = .running → op.toNat ∈ modRMOpcodes → Unsupported b →
    BytesAtEip s [op, b] → ∃ t, step s = .next t ∧ StopsInHandler s t (.unimplementedAddressingMode b)

/-- R64: an unmapped slot of a group stops the core once the displacement is consumed, before any immediate is fetched
(the spec's decision D31). The ModRM layout and the groups of `inc` and `neg` are PRESUMED (notes/assumptions/13.md). -/
def Obligations.UnmappedGroupSlotStops : Prop :=
  ∀ (s : State) (op b : Byte) (disp : List Byte), s.status = .running → UnmappedSlot op b → ¬ Unsupported b →
    disp.length = dispBytes b → BytesAtEip s (op :: b :: disp) →
    ∃ t, step s = .next t ∧ StopsInHandler s t (.unimplementedOpcode op (some (b.extractLsb' 3 3)))

/-- R38: when a memory smaller than the address space ends inside an instruction, the step stops with `EndOfStream` (the
spec's decision D7) and runs nothing of it. -/
def Obligations.MissingBytesAreEndOfStream : Prop :=
  ∀ (s : State) (i : Instr) (k : Nat), s.status = .running → i.wf = true → k < i.length →
    s.cfg.memSize < 4294967296 → s.eip.toNat + k = s.cfg.memSize →
    (∀ j (h : j < k) (h' : j < (encode i).length), s.byteAt (s.eip.toNat + j) = (encode i)[j]) →
    ∃ t e, step s = .next t ∧ StopsInHandler s t e ∧ e.kind = .endOfStream

/-- R15, R38, by the model's reading of notes/assumptions/7.md: where memory fills the address space, `eip` goes on at
address 0 after 0xFFFFFFFF, between two fetches of one instruction too; a fetch whose own bytes lie on both sides of the
wrap is outside memory. The opcode byte 6A is PRESUMED (notes/assumptions/13.md). -/
def Obligations.FetchCursorWraps : Prop :=
  ∀ s : State, s.status = .running → s.cfg.memSize = 4294967296 →
    (s.eip = 0xFFFFFFFF → s.byteAt 0xFFFFFFFF = 0x6A → step s = exec (.pushImm8 (s.byteAt 0)) { s with eip := 1 }) ∧
    (s.eip = 0xFFFFFFFF → s.byteAt 0xFFFFFFFF = 0xB9 →
      step s = exec (.movR32Imm32 .ecx (wordAt s 0)) { s with eip := 4 }) ∧
    (s.eip = 0xFFFFFFFD → s.byteAt 0xFFFFFFFD = 0xB9 →
      ∃ t, step s = .next t ∧ StopsInHandler s t (.endOfStream 0xFFFFFFFE 4))

/-! ### Invariants -/

/-- Every step keeps the invariant: memory stays canonical, every listed byte stays inside memory, and the memory size
stays one that R6 admits; the stops are among the steps. -/
def Obligations.StepKeepsInvariant : Prop :=
  ∀ s t : State, s.Inv → step s = .next t → t.Inv

/-- The reset state and every loaded core with a memory size that R6 admits meet the invariant. -/
def Obligations.LoadedCoreMeetsInvariant : Prop :=
  State.reset.Inv ∧
  ∀ (cfg : Config) (image : List Host.Cell) (eip esp : Word), 1 ≤ cfg.memSize → cfg.memSize ≤ 4294967296 →
    ((State.create cfg).load image eip esp).Inv

/-- Every step appends to the output trace and only bytes of port 0x3F8, and changes neither the parameters nor the input
that the environment has supplied (10_state.md R22, 60_exceptions.md R172). -/
def Obligations.StepOnlyAppendsToTrace : Prop :=
  ∀ s t : State, step s = .next t →
    (∃ bs : List Byte, t.outTrace = s.outTrace ++ bs.map (fun b => ((0x3F8 : Port), b))) ∧
    t.cfg = s.cfg ∧ t.portIn = s.portIn

/-- The reset core (R24, R180): its registers are zero (esp among them by the model's choice, notes/assumptions/3.md), it
runs, and it has emitted and consumed nothing. -/
def Obligations.ResetState : Prop :=
  (∀ r, State.reset.get32 r = 0) ∧ State.reset.status = .running ∧ State.reset.outTrace = [] ∧ State.reset.inPos = 0

/-- The state at the first step (R24, R186): registers zero but ESP, `eip` and ESP as loaded, running, nothing emitted or
consumed, each image byte at its address. The flags clear are the spec's decision D5, and bytes that the image leaves out
read as zero by the model's choice (notes/assumptions/4.md). -/
def Obligations.LoadedCoreState : Prop :=
  ∀ (cfg : Config) (image : List Host.Cell) (eip esp : Word),
    let s := (State.create cfg).load image eip esp
    (∀ r, r ≠ .esp → s.get32 r = 0) ∧ s.get32 .esp = esp ∧ s.eip = eip ∧ s.cfg = cfg ∧
    s.status = .running ∧ s.outTrace = [] ∧ s.inPos = 0 ∧ s.flags = ⟨false, false, false, false⟩ ∧
    (image.Pairwise (fun c d => c.1 ≠ d.1) → ∀ a b, (a, b) ∈ image → a < cfg.memSize → s.byteAt a = b) ∧
    (∀ a, (∀ b, (a, b) ∉ image) → s.byteAt a = 0)

/-! ### Registers and memory -/

/-- R10, R11: eight registers, at indices 0 to 7, each reading back the last value written; a write changes no other
register and nothing else. -/
def Obligations.RegistersReadBack : Prop :=
  (List.map Reg32.ofCode [0, 1, 2, 3, 4, 5, 6, 7] = [.eax, .ecx, .edx, .ebx, .esp, .ebp, .esi, .edi]) ∧
  ∀ (s : State) (r q : Reg32) (v : Word),
    (s.set32 r v).get32 r = v ∧ (q ≠ r → (s.set32 r v).get32 q = s.get32 q) ∧
    s.set32 r v = { s with regs := (s.set32 r v).regs }

/-- R12, R13: an 8-bit view reads its byte of the owning slot, bits 7:0 for views 0 to 3 and 15:8 for views 4 to 7 of
slots 0 to 3, and a write of it changes that byte alone; the other three bytes and the other slots are preserved. That the
high views are bits 15:8 is the spec's decision D12, PRESUMED (notes/assumptions/14.md). -/
def Obligations.ByteViewWriteKeepsOtherBytes : Prop :=
  ∀ (s : State) (i : Fin 8) (v : Byte),
    let r := Reg8.ofCode (BitVec.ofNat 3 i.val)
    let slot := Reg32.ofCode (BitVec.ofNat 3 (i.val % 4))
    let low := if i.val < 4 then 0 else 8
    s.get8 r = (s.get32 slot).extractLsb' low 8 ∧
    (∀ k, k < 32 → ((s.set8 r v).get32 slot).getLsbD k =
      if low ≤ k ∧ k < low + 8 then v.getLsbD (k - low) else (s.get32 slot).getLsbD k) ∧
    (∀ q, q ≠ slot → (s.set8 r v).get32 q = s.get32 q) ∧
    s.set8 r v = { s with regs := (s.set8 r v).regs }

/-- R33: a read of `n` bytes in memory returns the little-endian sum of its bytes; one that leaves memory raises
`OutOfBounds`. -/
def Obligations.ReadIsTheLittleEndianSum : Prop :=
  ∀ (s : State) (a : Word) (n : Nat), n ∈ [1, 2, 4] →
    (a.toNat + n > s.cfg.memSize → s.memRead a n = .error (.outOfBounds a n)) ∧
    (a.toNat + n ≤ s.cfg.memSize →
      s.memRead a n = .ok (((List.range n).map fun k => (s.byteAt (a.toNat + k)).toNat * 2 ^ (8 * k)).sum))

/-- R34: a write of `n` bytes stores byte k of the value at address a + k and changes nothing else; one that leaves memory
raises `OutOfBounds` before any byte is written. -/
def Obligations.WriteStoresEachByte : Prop :=
  ∀ (s : State) (a : Word) (n v : Nat), n ∈ [1, 2, 4] → s.Inv → v < 2 ^ (8 * n) →
    (a.toNat + n > s.cfg.memSize → s.memWrite a n v = .error (.outOfBounds a n)) ∧
    (a.toNat + n ≤ s.cfg.memSize → ∃ t, s.memWrite a n v = .ok t ∧ t = { s with mem := t.mem } ∧
      (∀ k, k < n → (t.byteAt (a.toNat + k)).toNat = v / 2 ^ (8 * k) % 256) ∧
      ∀ x, x < a.toNat ∨ a.toNat + n ≤ x → t.byteAt x = s.byteAt x)

/-- R32: byte order is little-endian and a narrow read sees the bytes at its addresses. -/
def Obligations.NarrowReadSeesPartOfWord : Prop :=
  ∀ (s t : State) (a v : Word), s.Inv → s.memWrite32 a v = .ok t →
    t.memRead32 a = .ok v ∧
    (∀ k, k < 4 → t.memRead8 (a + BitVec.ofNat 32 k) = .ok (v.extractLsb' (8 * k) 8)) ∧
    (∀ k, k < 3 → t.memRead16 (a + BitVec.ofNat 32 k) = .ok (v.extractLsb' (8 * k) 16))

/-- R38, R45: an instruction fetch reads the same bytes, in the same order, as a data access at `eip`. -/
def Obligations.FetchAgreesWithDataRead : Prop :=
  ∀ s : State,
    (∀ b, s.memRead8 s.eip = .ok b → ∃ c, fetch8 ⟨0, s.fetchWindow, s.wrapWindow⟩ = .ok (b, c) ∧ c.pos = 1) ∧
    (∀ h, s.memRead16 s.eip = .ok h → ∃ c, fetch16 ⟨0, s.fetchWindow, s.wrapWindow⟩ = .ok (h, c) ∧ c.pos = 2) ∧
    (∀ w, s.memRead32 s.eip = .ok w → ∃ c, fetch32 ⟨0, s.fetchWindow, s.wrapWindow⟩ = .ok (w, c) ∧ c.pos = 4)

/-- R45, R192: a store is seen by the next fetch, wherever it lies: every byte that the fetch can take, from `eip` up and
past a wrap from address 0 up (notes/assumptions/7.md), is the byte of memory after the store, which is a byte of the
value at the four addresses stored to and the old byte elsewhere. -/
def Obligations.StoreIsSeenByNextFetch : Prop :=
  ∀ (s t : State) (a v : Word), s.Inv → s.memWrite32 a v = .ok t →
    let stored := fun x => if a.toNat ≤ x ∧ x < a.toNat + 4 then v.extractLsb' (8 * (x - a.toNat)) 8 else s.byteAt x
    (∀ x, t.byteAt x = stored x) ∧
    t.fetchWindow.length = min 10 (s.cfg.memSize - s.eip.toNat) ∧
    (∀ k (h : k < t.fetchWindow.length), t.fetchWindow[k] = stored (s.eip.toNat + k)) ∧
    t.wrapWindow.length = (if s.cfg.memSize = 4294967296 then 10 else 0) ∧
    ∀ k (h : k < t.wrapWindow.length), t.wrapWindow[k] = stored k

/-- R41: `push32(v)` then `pop32()` returns `v` and leaves esp as it was, for every v and every esp at which the push
succeeds, aligned or not; esp = 0 with a full address space is among them by notes/assumptions/32.md (DEDUCED). -/
def Obligations.PushThenPopRoundTrip : Prop :=
  ∀ (s t : State) (v : Word), s.Inv → s.push32 v = .ok t →
    ∃ u, t.pop32 = .ok (v, u) ∧ u.get32 .esp = s.get32 .esp ∧ u = { s with mem := u.mem }

/-- R138, R139: a `call`, and later a `ret` with esp and the slot as the call left them, gives the address after the call
and the esp from before it; at esp = 0 with a full address space the call fits by notes/assumptions/32.md (DEDUCED). -/
def Obligations.CallThenRetRoundTrip : Prop :=
  ∀ (s t u : State) (rel : Word), s.Inv → Fits s (s.get32 .esp - 4) 4 → exec (.callRel32 rel) s = .next t →
    u.get32 .esp = t.get32 .esp → wordAt u (t.get32 .esp).toNat = wordAt t (t.get32 .esp).toNat →
    u.cfg.memSize = s.cfg.memSize →
    ∃ w, exec .ret u = .next w ∧ w.eip = s.eip ∧ w.get32 .esp = s.get32 .esp

/-! ### The flag ALU -/

/-- R83: `FlagSub` by its formulas, with `full` the difference over the unbounded integers and `r` its value modulo
2^W: zero, the top bit, unsigned borrow, signed overflow. It holds at every width W = n + 1, 8 and 32 among them. -/
def Obligations.FlagSubFormulas : Prop :=
  ∀ (n : Nat) (a b : BitVec (n + 1)),
    let full : Int := (a.toNat : Int) - (b.toNat : Int)
    let r : Nat := (full % (2 ^ (n + 1) : Int)).toNat
    ((flagSub a b).zf = true ↔ r = 0) ∧
    (flagSub a b).sf = r.testBit n ∧
    ((flagSub a b).cf = true ↔ a.toNat < b.toNat) ∧
    ((flagSub a b).of = true ↔
      a.toNat.testBit n ≠ b.toNat.testBit n ∧ r.testBit n ≠ a.toNat.testBit n)

/-- R84: the properties of the flags of a subtraction that R83's formulas imply, at every width of at least one bit. -/
def Obligations.FlagSubProperties : Prop :=
  ∀ (n : Nat) (a b : BitVec (n + 1)),
    ((flagSub a b).zf = true ↔ a = b) ∧
    ((flagSub a b).cf = true ↔ a.toNat < b.toNat) ∧
    ¬ ((flagSub a b).zf = true ∧ (flagSub a b).cf = true) ∧
    ((flagSub a b).sf ≠ (flagSub a b).of ↔ a.toInt < b.toInt) ∧
    ((flagSub a b).condLE = true ↔ a.toInt ≤ b.toInt) ∧
    ((flagSub a b).of = true ↔ a.toInt - b.toInt < -(2 ^ n : Int) ∨ (2 ^ n : Int) ≤ a.toInt - b.toInt) ∧
    flagSub a 0#(n + 1) = ⟨false, decide (a = 0#(n + 1)), a.msb, false⟩

/-- R93: after `cmp r32, rm32` a `jle` adds its offset exactly when operand 1 is at most operand 2 as signed numbers,
also where the subtraction overflows. -/
def Obligations.JleAfterCmpIsSignedLessOrEqual : Prop :=
  ∀ (s t : State) (r : Reg32) (m : RM Reg32) (rel : Byte), Accessible32 s m → exec (.cmpR32Rm32 r m) s = .next t →
    exec (.jleRel8 rel) t =
      .next { t with eip := if (s.get32 r).toInt ≤ (operand32 s m).toInt then t.eip + rel.signExtend 32 else t.eip }

/-! ### What each instruction does, and that it completes -/

/-- R90 to R93: the jumps change `eip` alone. -/
def Obligations.JumpResults : Prop :=
  (∀ (s : State) (rel : Word), exec (.jmpRel32 rel) s = .next { s with eip := s.eip + rel }) ∧
  ∀ (s : State) (rel : Byte),
    exec (.jsRel8 rel) s = .next { s with eip := if s.flags.sf then s.eip + rel.signExtend 32 else s.eip } ∧
    exec (.jzRel8 rel) s = .next { s with eip := if s.flags.zf then s.eip + rel.signExtend 32 else s.eip } ∧
    exec (.jleRel8 rel) s = .next
      { s with eip := if s.flags.zf = true ∨ s.flags.sf ≠ s.flags.of then s.eip + rel.signExtend 32 else s.eip }

/-- R94: at every conditional jump `eip` first advances by the instruction length 2, and the offset is added on top of
that only when the predicate holds. The predicates are those of R91 to R93 and the offset is sign-extended by R52. The
opcode bytes 78, 74 and 7E are PRESUMED (G1, D20; notes/assumptions/13.md). Both bytes lie in memory from `eip` up; an
offset byte past a wrap is StepRunsTheDecodedInstruction with JumpResults. -/
def Obligations.ConditionalJumpStep : Prop :=
  ∀ (s : State) (rel : Byte), s.status = .running →
    (BytesAtEip s [0x78, rel] → step s = .next
      { s with eip := s.eip + 2 + if s.flags.sf then rel.signExtend 32 else 0 }) ∧
    (BytesAtEip s [0x74, rel] → step s = .next
      { s with eip := s.eip + 2 + if s.flags.zf then rel.signExtend 32 else 0 }) ∧
    (BytesAtEip s [0x7E, rel] → step s = .next
      { s with eip := s.eip + 2 + if s.flags.zf = true ∨ s.flags.sf ≠ s.flags.of then rel.signExtend 32 else 0 })

/-- R100 to R102: the compares write the flags of operand 1 minus operand 2 and nothing else; `cmp AL, imm8` at the
width of `CMP_AL_WIDTH` (D16), `cmp rm32, imm8` with the immediate sign-extended (D17). -/
def Obligations.CompareResults : Prop :=
  (∀ (s : State) (imm : Byte), s.cfg.cmpAlWidth = .w8 → exec (.cmpAlImm8 imm) s =
    .next { s with flags := flagSub ((s.get32 .eax).extractLsb' 0 8) imm }) ∧
  (∀ (s : State) (imm : Byte), s.cfg.cmpAlWidth = .w32 → exec (.cmpAlImm8 imm) s =
    .next { s with flags := flagSub (((s.get32 .eax).extractLsb' 0 8).setWidth 32) (imm.setWidth 32) }) ∧
  (∀ (s : State) (r : Reg32) (m : RM Reg32), Accessible32 s m → exec (.cmpR32Rm32 r m) s =
    .next { s with flags := flagSub (s.get32 r) (operand32 s m) }) ∧
  (∀ (s : State) (m : RM Reg32) (imm : Byte), Accessible32 s m → exec (.cmpRm32Imm8 m imm) s =
    .next { s with flags := flagSub (operand32 s m) (imm.signExtend 32) })

/-- R110, R111, R130, R131, R145: add, inc and neg write the operand modulo 2^32 and nothing else, no flag among it
(R86; of `neg` the spec's decision D15), for a register and for a memory operand. -/
def Obligations.WrappingArithmeticResults : Prop :=
  ∀ s : State, s.Inv →
    (∀ (m : RM Reg32) (r : Reg32), Accessible32 s m → ∃ t, exec (.addRm32R32 m r) s = .next t ∧
      WritesOperand s t m (BitVec.ofNat 32 ((operand32 s m).toNat + (s.get32 r).toNat))) ∧
    (∀ (m : RM Reg32) (imm : Byte), Accessible32 s m → ∃ t, exec (.addRm32Imm8 m imm) s = .next t ∧
      WritesOperand s t m (BitVec.ofInt 32 ((operand32 s m).toNat + imm.toInt))) ∧
    (∀ m : RM Reg32, Accessible32 s m → ∃ t, exec (.incRm32 m) s = .next t ∧
      WritesOperand s t m (BitVec.ofNat 32 ((operand32 s m).toNat + 1))) ∧
    (∀ r : Reg32, exec (.incR32 r) s = .next (s.set32 r (BitVec.ofNat 32 ((s.get32 r).toNat + 1)))) ∧
    (∀ m : RM Reg32, Accessible32 s m → ∃ t, exec (.negRm32 m) s = .next t ∧
      WritesOperand s t m (BitVec.ofInt 32 (-(operand32 s m).toInt)))

/-- R112: where it does not stop, `sub rm32, imm8` writes the difference modulo 2^32 and, when `SUB_WRITES_FLAGS`, the
four flags of that subtraction, and nothing else (the spec's decisions D13, D14). -/
def Obligations.SubResult : Prop :=
  ∀ (s : State) (m : RM Reg32) (imm : Byte), s.Inv → Accessible32 s m →
    (s.cfg.subUnderflow = .wrap ∨ (imm.signExtend 32).toNat ≤ (operand32 s m).toNat) →
    ∃ t, exec (.subRm32Imm8 m imm) s = .next t ∧
      WritesOperand
        (if s.cfg.subWritesFlags then { s with flags := flagSub (operand32 s m) (imm.signExtend 32) } else s) t m
        (BitVec.ofInt 32 ((operand32 s m).toNat - imm.toInt))

/-- R112, D13: an unsigned underflow of `sub rm32, imm8` stops the core with `ArithmeticUnderflow` when
`SUB_IMM8_UNDERFLOW` is `fault`. -/
def Obligations.SubUnderflowStops : Prop :=
  ∀ (s : State) (m : RM Reg32) (imm : Byte), Accessible32 s m → s.cfg.subUnderflow = .fault →
    (operand32 s m).toNat < (imm.signExtend 32).toNat →
    ∃ t, exec (.subRm32Imm8 m imm) s = .next t ∧
      StopsInHandler s t (.arithmeticUnderflow (operand32 s m) (imm.signExtend 32))

/-- R120 to R125: the moves are plain copies; nothing but the destination changes, an 8-bit destination changes its view
alone, and the ModRM `reg` field of `mov rm32, imm32` has no effect (R67, D18). -/
def Obligations.MoveResults : Prop :=
  ∀ s : State, s.Inv →
    (∀ (m : RM Reg32) (r : Reg32), Accessible32 s m → ∃ t, exec (.movRm32R32 m r) s = .next t ∧
      WritesOperand s t m (s.get32 r)) ∧
    (∀ (r : Reg32) (m : RM Reg32), Accessible32 s m → exec (.movR32Rm32 r m) s = .next (s.set32 r (operand32 s m))) ∧
    (∀ (r : Reg8) (m : RM Reg8), Accessible8 s m → exec (.movR8Rm8 r m) s = .next (s.set8 r (operand8 s m))) ∧
    (∀ (g : BitVec 3) (m : RM Reg32) (imm : Word), Accessible32 s m → ∃ t, exec (.movRm32Imm32 g m imm) s = .next t ∧
      WritesOperand s t m imm) ∧
    (∀ (r : Reg8) (imm : Byte), exec (.movR8Imm8 r imm) s = .next (s.set8 r imm)) ∧
    (∀ (r : Reg32) (imm : Word), exec (.movR32Imm32 r imm) s = .next (s.set32 r imm))

/-- R135, R137, R138: a push lowers esp by 4 and stores one word at the new esp; `push esp` stores the old esp; `call`
stores the address of the next instruction and adds its offset to it. DEDUCED (notes/assumptions/32.md): at esp = 0 with
MEM_SIZE = 2^32 the slot 0xFFFFFFFC is in bounds by R31's formula, so these complete, where the prose of R135 and R187
says that a push at an esp below 4 stops. -/
def Obligations.PushAndCallResults : Prop :=
  ∀ s : State, s.Inv → Fits s (s.get32 .esp - 4) 4 →
    let low := s.get32 .esp - 4
    (∀ r : Reg32, ∃ t, exec (.pushR32 r) s = .next t ∧ Stores (s.set32 .esp low) t low.toNat (s.get32 r)) ∧
    (∀ imm : Byte, ∃ t, exec (.pushImm8 imm) s = .next t ∧
      Stores (s.set32 .esp low) t low.toNat (imm.signExtend 32)) ∧
    (∀ rel : Word, ∃ t, exec (.callRel32 rel) s = .next t ∧
      Stores { s.set32 .esp low with eip := s.eip + rel } t low.toNat s.eip)

/-- R136, R139, R140: a pop reads the word at the old esp and raises esp by 4, before the destination is written, so
`pop esp` leaves the popped word; `ret` gives it to `eip`; `leave` pops ebp from the address in ebp. -/
def Obligations.PopRetLeaveResults : Prop :=
  ∀ s : State,
    (Fits s (s.get32 .esp) 4 → (∀ r : Reg32, exec (.popR32 r) s =
      .next ((s.set32 .esp (s.get32 .esp + 4)).set32 r (wordAt s (s.get32 .esp).toNat)))) ∧
    (Fits s (s.get32 .esp) 4 → exec .ret s =
      .next { s.set32 .esp (s.get32 .esp + 4) with eip := wordAt s (s.get32 .esp).toNat }) ∧
    (Fits s (s.get32 .ebp) 4 → exec .leave s =
      .next ((s.set32 .esp (s.get32 .ebp + 4)).set32 .ebp (wordAt s (s.get32 .ebp).toNat)))

/-- R31, R161: an instruction whose data access leaves memory, its end taken over the unbounded integers (the spec's
decision D8), stops the core with `OutOfBounds` for that address and width. -/
def Obligations.AccessOutsideMemoryStops : Prop :=
  ∀ (s : State) (i : Instr) (a : Word) (n : Nat), dataAccess s i = some (a, n) → ¬ Fits s a n →
    ∃ t, exec i s = .next t ∧ StopsInHandler s t (.outOfBounds a n)

/-- R150, R151, D22: `int 0x10` with AH = 0x0E emits the bytes of `VideoFormat(AL, BL[2:0], BL[3])` to port 0x3F8 and
changes nothing else. -/
def Obligations.VideoInterruptResult : Prop :=
  ∀ s : State, (s.get32 .eax).extractLsb' 8 8 = (0x0E : Byte) →
    let bytes := Config.videoFormat ((s.get32 .eax).extractLsb' 0 8) ((s.get32 .ebx).extractLsb' 0 3)
      ((s.get32 .ebx).getLsbD 3)
    exec (.intImm8 0x10) s = .next { s with outTrace := s.outTrace ++ bytes.map (fun b => ((0x3F8 : Port), b)) }

/-- R150, R151, D21: every other vector, and vector 0x10 with another AH, stops the core with
`UnimplementedInterruptVector`. -/
def Obligations.OtherInterruptsStop : Prop :=
  ∀ (s : State) (vec : Byte), vec ≠ 0x10 ∨ (s.get32 .eax).extractLsb' 8 8 ≠ (0x0E : Byte) →
    ∃ t e, exec (.intImm8 vec) s = .next t ∧ StopsInHandler s t e ∧ e.kind = .unimplementedInterruptVector

/-- R155, R157: `in AL, DX` puts 0 in AL from every port but 0x3F8, and from port 0x3F8 the next byte of the input, which
it consumes; nothing else changes. -/
def Obligations.PortInputResult : Prop :=
  ∀ s : State,
    ((s.get32 .edx).extractLsb' 0 16 ≠ (0x3F8 : Port) → exec .inAlDx s = .next (s.set8 .al 0)) ∧
    ((s.get32 .edx).extractLsb' 0 16 = (0x3F8 : Port) → ∀ h : s.inPos < s.portIn.length,
      exec .inAlDx s = .next { s.set8 .al s.portIn[s.inPos] with inPos := s.inPos + 1 })

/-- R157, R174, D23: with no line available, `in AL, DX` on port 0x3F8 waits; a line that the environment then supplies is
answered with its first byte, and the rest of the line never reaches the core. -/
def Obligations.PortInputWaitsForLine : Prop :=
  ∀ (s : State) (b : Byte) (rest : List Byte), (s.get32 .edx).extractLsb' 0 16 = (0x3F8 : Port) →
    s.inPos = s.portIn.length →
    exec .inAlDx s = .fault .blockedOnInput ∧
    exec .inAlDx (s.supplyLine (b :: rest)) =
      .next { s.set8 .al b with portIn := s.portIn ++ [b], inPos := s.inPos + 1 }

/-- R156, R158: `out DX, AL` appends (0x3F8, AL) to the trace on port 0x3F8 and changes nothing else; on every other port
it stops the core with `UnimplementedPort`. -/
def Obligations.PortOutputResult : Prop :=
  ∀ s : State,
    ((s.get32 .edx).extractLsb' 0 16 = (0x3F8 : Port) → exec .outDxAl s =
      .next { s with outTrace := s.outTrace ++ [((0x3F8 : Port), (s.get32 .eax).extractLsb' 0 8)] }) ∧
    ((s.get32 .edx).extractLsb' 0 16 ≠ (0x3F8 : Port) → ∃ t, exec .outDxAl s = .next t ∧
      StopsInHandler s t (.unimplementedPort ((s.get32 .edx).extractLsb' 0 16)))

/-! ### Whole-machine rules -/

/-- The memory frame of every instruction: an instruction that does not stop leaves every byte outside the word it stores
as it was, and all of memory when its form stores nothing (20_memory.md R36). -/
def Obligations.MemoryFrame : Prop :=
  ∀ (i : Instr) (s t : State), exec i s = .next t → t.status = .running →
    ∀ x, (∀ a, storeAddr s i = some a → x < a.toNat ∨ a.toNat + 4 ≤ x) → t.byteAt x = s.byteAt x

/-- The register frame of every instruction: one that does not stop leaves every register as it was but its destination
and the esp and ebp that it names implicitly (10_state.md R14). -/
def Obligations.RegisterFrame : Prop :=
  ∀ (i : Instr) (s t : State), exec i s = .next t → t.status = .running →
    ∀ r, r ∉ writtenRegs i → t.get32 r = s.get32 r

/-- R17, R86: the flags are written only by the compares and by `sub` (when `SUB_WRITES_FLAGS`), all four at once, as the
flags of a subtraction; every other instruction leaves them. -/
def Obligations.FlagsWrittenOnlyBySubtraction : Prop :=
  ∀ (i : Instr) (s t : State), exec i s = .next t → t.status = .running →
    (writesFlags s i = false → t.flags = s.flags) ∧
    (writesFlags s i = true →
      (∃ a b : Byte, t.flags = flagSub a b) ∨ ∃ a b : Word, t.flags = flagSub a b)

/-- The frame of the rest: an instruction that does not stop changes the trace only if it is `int` or `out`, the consumed
input only if it is `in`, and never the supplied input, the parameters or the counter of free values. -/
def Obligations.BoundaryFrame : Prop :=
  ∀ (i : Instr) (s t : State), exec i s = .next t → t.status = .running →
    ((∀ v, i ≠ .intImm8 v) → i ≠ .outDxAl → t.outTrace = s.outTrace) ∧
    (i ≠ .inAlDx → t.inPos = s.inPos) ∧
    t.portIn = s.portIn ∧ t.cfg = s.cfg ∧ t.draw = s.draw

/-- R82, R165: when an instruction stops the core, the error is one that R165's table gives that instruction, and the
trace, the supplied input and the parameters are kept. -/
def Obligations.HandlerStopsAreThoseOfTheTable : Prop :=
  ∀ (i : Instr) (s t : State) (e : StopError), s.status = .running → exec i s = .next t → t.status = .stopped e →
    e.kind ∈ mayRaise i ∧ StopsInHandler s t e

/-- R17, R85: no instruction reads the carry flag; it can change nothing but itself. -/
def Obligations.CarryFlagIsNeverRead : Prop :=
  ∀ (i : Instr) (s : State) (c : Bool), forgetCarry (exec i (withCarry s c)) = forgetCarry (exec i s)

/-! ### Operands and encodings -/

/-- R57, R52: the effective address is the 32-bit base register plus the displacement, one byte sign-extended and four
bytes as they are, modulo 2^32 (the spec's decision D9). -/
def Obligations.EffectiveAddress : Prop :=
  ∀ (s : State) (base : Reg32),
    s.effAddr base .none = s.get32 base ∧
    (∀ d : Byte, s.effAddr base (.disp8 d) = BitVec.ofInt 32 ((s.get32 base).toNat + d.toInt)) ∧
    ∀ d : Word, s.effAddr base (.disp32 d) = BitVec.ofNat 32 ((s.get32 base).toNat + d.toNat)

/-- R55 to R57, R60: what a supported ModRM byte and its displacement bytes resolve to, whatever follows them: the `reg`
field, and the register of `rm` (32-bit or an 8-bit view) or memory at the 32-bit register of `rm` plus the displacement.
The places of mod and rm and the meaning of mod are PRESUMED (G2, D10; notes/assumptions/13.md). -/
def Obligations.ModRMByteNamesItsOperand : Prop :=
  ∀ (s : State) (b : Byte) (disp rest wrapped : List Byte), ¬ Unsupported b → disp.length = dispBytes b →
    let mod := b.extractLsb' 6 2
    let rm := b.extractLsb' 0 3
    let base := s.get32 (Reg32.ofCode rm)
    ∃ m c, resolve ⟨0, b :: (disp ++ rest), wrapped⟩ = .ok (m, c) ∧ c.pos = 1 + disp.length ∧ m.reg = b.extractLsb' 3 3 ∧
      (mod = 3 → m.rm32 = .reg (Reg32.ofCode rm) ∧ m.rm8 = .reg (Reg8.ofCode rm)) ∧
      (mod ≠ 3 → ∃ a, operandAddr s m.rm32 = some a ∧ operandAddr s m.rm8 = some a ∧
        (mod = 0 → a = base) ∧
        (∀ d, disp = [d] → a = BitVec.ofInt 32 (base.toNat + d.toInt)) ∧
        ∀ d0 d1 d2 d3, disp = [d0, d1, d2, d3] → a = BitVec.ofNat 32 (base.toNat + (d3 ++ d2 ++ d1 ++ d0 : Word).toNat))

/-- A word for each of the forms that SampleEncodingsDecode leaves out, written out from R51 and R66. The opcode bytes 78,
74, 3C, 01, 89, 8B, 6A, E8, C3, C9 and EE and the ModRM layout are PRESUMED (G1, G2, D10, D20;
notes/assumptions/13.md). -/
def Obligations.SampleEncodingsOfOtherFormsDecode : Prop :=
  decode [0x78, 0x02] = .ok (.jsRel8 0x02, 2) ∧
  decode [0x74, 0x06] = .ok (.jzRel8 0x06, 2) ∧
  decode [0x3C, 0x05] = .ok (.cmpAlImm8 0x05, 2) ∧
  decode [0x01, 0xC8] = .ok (.addRm32R32 (.reg .eax) .ecx, 2) ∧
  decode [0x83, 0x03, 0x01] = .ok (.addRm32Imm8 (.mem .ebx .none) 0x01, 3) ∧
  decode [0x89, 0xE5] = .ok (.movRm32R32 (.reg .ebp) .esp, 2) ∧
  decode [0x8B, 0x85, 0x00, 0x01, 0x00, 0x00] = .ok (.movR32Rm32 .eax (.mem .ebp (.disp32 0x100)), 6) ∧
  decode [0xB4, 0x0E] = .ok (.movR8Imm8 .ah 0x0E, 2) ∧
  decode [0xBC, 0x00, 0x01, 0x00, 0x00] = .ok (.movR32Imm32 .esp 0x100, 5) ∧
  decode [0x47] = .ok (.incR32 .edi, 1) ∧
  decode [0x51] = .ok (.pushR32 .ecx, 1) ∧
  decode [0x6A, 0x09] = .ok (.pushImm8 0x09, 2) ∧
  decode [0xE8, 0xAB, 0xFF, 0xFF, 0xFF] = .ok (.callRel32 0xFFFFFFAB, 5) ∧
  decode [0xC3] = .ok (.ret, 1) ∧
  decode [0xC9] = .ok (.leave, 1) ∧
  decode [0xEE] = .ok (.outDxAl, 1)
end

