-- ==== Sys2Proof/Laws/Decode.lean ====
section
/-! SUPPORT. The small laws of the decoder's parts: register fields, the ModRM byte, the fetch primitives. -/

namespace Sys2Proof

/-! ### Register fields -/

@[simp] theorem Reg32.ofCode_code (r : Reg32) : Reg32.ofCode r.code = r := by
  cases r <;> rfl

@[simp] theorem Reg32.code_ofCode (c : BitVec 3) : (Reg32.ofCode c).code = c := by
  revert c; decide

@[simp] theorem Reg8.ofCode_code (r : Reg8) : Reg8.ofCode r.code = r := by
  cases r <;> rfl

@[simp] theorem Reg8.code_ofCode (c : BitVec 3) : (Reg8.ofCode c).code = c := by
  revert c; decide

/-! ### The ModRM byte -/

@[simp] theorem modField_modRMByte (mod : BitVec 2) (reg rm : BitVec 3) : modField (modRMByte mod reg rm) = mod := by
  revert mod reg rm; decide

@[simp] theorem regField_modRMByte (mod : BitVec 2) (reg rm : BitVec 3) : regField (modRMByte mod reg rm) = reg := by
  revert mod reg rm; decide

@[simp] theorem rmField_modRMByte (mod : BitVec 2) (reg rm : BitVec 3) : rmField (modRMByte mod reg rm) = rm := by
  revert mod reg rm; decide

@[simp] theorem modRMByte_fields (b : Byte) : modRMByte (modField b) (regField b) (rmField b) = b := by
  revert b; decide

/-! ### Fetch

The laws of a byte sequence alone: nothing follows past a wrap. -/

@[simp] theorem Cursor.next_nil (p : Nat) (bs : List Byte) : Cursor.next p bs [] = ⟨p, bs, []⟩ := by
  cases bs <;> rfl

/-- A fetch of bytes that are there. -/
theorem fetchLE_append (n p : Nat) (ws bs : List Byte) (h : ws.length = n) (v : List Byte) :
    fetchLE n ⟨p, ws ++ bs, v⟩ = .ok (leNat ws, Cursor.next (p + n) bs v) := by
  subst h
  simp [fetchLE]

theorem fetch8_cons_next (p : Nat) (b : Byte) (bs v : List Byte) :
    fetch8 ⟨p, b :: bs, v⟩ = .ok (b, Cursor.next (p + 1) bs v) := by
  have h := fetchLE_append 1 p [b] bs rfl v
  simp only [List.singleton_append] at h
  simp [fetch8, h, leNat, bind, Except.bind, pure, Except.pure]

@[simp] theorem fetch8_cons (p : Nat) (b : Byte) (bs : List Byte) :
    fetch8 ⟨p, b :: bs, []⟩ = .ok (b, ⟨p + 1, bs, []⟩) := by
  rw [fetch8_cons_next, Cursor.next_nil]

@[simp] theorem fetch8_nil (p : Nat) (v : List Byte) : fetch8 ⟨p, [], v⟩ = .error (.endOfStream p 1) := rfl

theorem fetch32_append_next (p : Nat) (ws bs v : List Byte) (h : ws.length = 4) :
    fetch32 ⟨p, ws ++ bs, v⟩ = .ok (BitVec.ofNat 32 (leNat ws), Cursor.next (p + 4) bs v) := by
  simp only [fetch32, fetchLE_append 4 p ws bs h v, bind, Except.bind, pure, Except.pure]

theorem fetch32_append (p : Nat) (ws bs : List Byte) (h : ws.length = 4) :
    fetch32 ⟨p, ws ++ bs, []⟩ = .ok (BitVec.ofNat 32 (leNat ws), ⟨p + 4, bs, []⟩) := by
  rw [fetch32_append_next p ws bs [] h, Cursor.next_nil]

@[simp] theorem fetch32_wordBytes (p : Nat) (w : Word) (bs : List Byte) :
    fetch32 ⟨p, wordBytes w ++ bs, []⟩ = .ok (w, ⟨p + 4, bs, []⟩) := by
  rw [fetch32_append p _ bs (wordBytes_length w), ofNat_leNat_wordBytes]

theorem fetch32_short (p : Nat) (bs v : List Byte) (h : bs.length < 4) :
    fetch32 ⟨p, bs, v⟩ = .error (.endOfStream p 4) := by
  simp only [fetch32, fetchLE, if_pos h, bind, Except.bind]

/-- Everything a 1-byte fetch can do. -/
theorem fetch8_cases (c : Cursor) :
    (∃ b bs, c.rest = b :: bs ∧ fetch8 c = .ok (b, Cursor.next (c.pos + 1) bs c.wrapped)) ∨
    (c.rest = [] ∧ fetch8 c = .error (.endOfStream c.pos 1)) := by
  obtain ⟨p, rest, v⟩ := c
  cases rest with
  | nil => exact .inr ⟨rfl, rfl⟩
  | cons b bs => exact .inl ⟨b, bs, rfl, fetch8_cons_next p b bs v⟩

/-- Everything a 4-byte fetch can do. -/
theorem fetch32_cases (c : Cursor) :
    (∃ w bs, c.rest = wordBytes w ++ bs ∧ fetch32 c = .ok (w, Cursor.next (c.pos + 4) bs c.wrapped)) ∨
    (c.rest.length < 4 ∧ fetch32 c = .error (.endOfStream c.pos 4)) := by
  obtain ⟨p, rest, v⟩ := c
  by_cases h : rest.length < 4
  · exact .inr ⟨h, fetch32_short p rest v h⟩
  · have hl : (rest.take 4).length = 4 := by simp; omega
    have hlt := leNat_lt (rest.take 4)
    rw [hl] at hlt
    have hw : wordBytes (BitVec.ofNat 32 (leNat (rest.take 4))) = rest.take 4 := by
      have hb := leBytes_leNat (rest.take 4)
      rw [hl] at hb
      simp only [wordBytes, BitVec.toNat_ofNat]
      rw [Nat.mod_eq_of_lt (by omega), hb]
    refine .inl ⟨BitVec.ofNat 32 (leNat (rest.take 4)), rest.drop 4, ?_, ?_⟩
    · show rest = _
      rw [hw, List.take_append_drop]
    · have h4 := fetch32_append_next p (rest.take 4) (rest.drop 4) v hl
      rwa [List.take_append_drop] at h4

/-- `Resolve` reads back the encoding of a well-formed operand. -/
theorem resolve_encodeRM {R : Type} (code : R → BitVec 3) (g : BitVec 3) (m : RM R) (p : Nat) (bs : List Byte)
    (h : m.wf = true) :
    resolve ⟨p, encodeRM code g m ++ bs, []⟩ = .ok (⟨g, m.map code⟩, ⟨p + 1 + m.dispLength, bs, []⟩) := by
  cases m with
  | reg r =>
    simp [encodeRM, resolve, RM.map, RM.dispLength, bind, Except.bind, pure, Except.pure]
  | mem base d =>
    cases d <;> cases base <;> first
      | (simp [RM.wf] at h; done)
      | simp [encodeRM, resolve, RM.map, RM.dispLength, Reg32.code, Reg32.ofCode, bind, Except.bind, pure, Except.pure]

/-! ### More bytes change nothing that was decided without them -/

/-- `d` is `c` with more bytes after its own. -/
def Cursor.Extends (c d : Cursor) : Prop :=
  c.pos = d.pos ∧ c.wrapped = [] ∧ ∃ r, d.rest = c.rest ++ r

theorem Cursor.extends_next (p : Nat) (rest r w : List Byte) :
    Cursor.Extends (Cursor.next p rest []) (Cursor.next p (rest ++ r) w) := by
  cases rest <;> cases r <;> exact ⟨rfl, rfl, _, rfl⟩

/-- A rejection for want of bytes. -/
def DecodeError.wantsBytes (e : DecodeError) : Prop :=
  ∃ offset n, e = .endOfStream offset n

/-- A parser whose answer, unless it wants bytes, stands when more bytes follow. -/
def Stable {A : Type} (f : Cursor → Except DecodeError (A × Cursor)) : Prop :=
  ∀ c d, c.Extends d →
    match f c with
    | .error e => e.wantsBytes ∨ f d = .error e
    | .ok (x, c') => ∃ d', f d = .ok (x, d') ∧ c'.Extends d'

theorem Stable.pure {A : Type} (x : A) : Stable (fun c => .ok (x, c)) := by
  intro c d h
  exact ⟨d, rfl, h⟩

theorem Stable.error {A : Type} (e : DecodeError) : Stable (A := A) (fun _ => .error e) := by
  intro c d _
  exact .inr rfl

theorem Stable.bind {A B : Type} {f : Cursor → Except DecodeError (A × Cursor)}
    {g : A → Cursor → Except DecodeError (B × Cursor)} (hf : Stable f) (hg : ∀ a, Stable (g a)) :
    Stable (fun c => do
      let (a, c') ← f c
      g a c') := by
  intro c d hcd
  have h := hf c d hcd
  rcases hc : f c with e | ⟨x, c'⟩ <;> rw [hc] at h <;> simp only [Bind.bind, Except.bind, hc] at h ⊢
  · rcases h with h | h
    · exact .inl h
    · exact .inr (by rw [h])
  · obtain ⟨d', hd, h'⟩ := h
    rw [hd]
    exact hg x c' d' h'

theorem Stable.ite {A : Type} {p : Prop} [Decidable p] {f g : Cursor → Except DecodeError (A × Cursor)}
    (hf : Stable f) (hg : Stable g) : Stable (fun c => if p then f c else g c) := by
  by_cases h : p <;> simp only [h, if_true, if_false] <;> assumption

theorem stable_fetch8 : Stable fetch8 := by
  rintro ⟨p, rest, w⟩ ⟨q, rest', w'⟩ ⟨h1, h2, r, h3⟩
  simp only at h1 h2 h3
  subst h1 h2 h3
  cases rest with
  | nil => exact .inl ⟨_, _, rfl⟩
  | cons b bs =>
    rw [fetch8_cons_next]
    exact ⟨_, fetch8_cons_next _ _ _ _, Cursor.extends_next _ _ _ _⟩

theorem stable_fetch32 : Stable fetch32 := by
  rintro ⟨p, rest, w⟩ ⟨q, rest', w'⟩ ⟨h1, h2, r, h3⟩
  simp only at h1 h2 h3
  subst h1 h2 h3
  rcases fetch32_cases ⟨p, rest, []⟩ with ⟨b, bs, hr, hf⟩ | ⟨_, hf⟩ <;> rw [hf]
  · simp only at hr
    subst hr
    refine ⟨_, ?_, Cursor.extends_next _ _ r w'⟩
    rw [List.append_assoc, fetch32_append_next _ _ _ _ (by simp)]
    simp
  · exact .inl ⟨_, _, rfl⟩

/-- `Resolve` once its ModRM byte is read. -/
def resolveAfter (b : Byte) (c1 : Cursor) : Except DecodeError (ModRM × Cursor) :=
  if modField b = 3 then .ok ((⟨regField b, .reg (rmField b)⟩ : ModRM), c1)
  else if rmField b = 4 then .error (.unsupportedAddressing b)
  else if modField b = 0 ∧ rmField b = 5 then .error (.unsupportedAddressing b)
  else if modField b = 0 then .ok (⟨regField b, .mem (Reg32.ofCode (rmField b)) .none⟩, c1)
  else if modField b = 1 then do
    let (d, c2) ← fetch8 c1
    .ok (⟨regField b, .mem (Reg32.ofCode (rmField b)) (.disp8 d)⟩, c2)
  else do
    let (d, c2) ← fetch32 c1
    .ok (⟨regField b, .mem (Reg32.ofCode (rmField b)) (.disp32 d)⟩, c2)

theorem stable_resolveAfter (b : Byte) : Stable (resolveAfter b) := by
  refine .ite (.pure _) (.ite (.error _) (.ite (.error _) (.ite (.pure _) (.ite ?_ ?_))))
  · exact Stable.bind stable_fetch8
      (g := fun d c2 => .ok ((⟨regField b, .mem (Reg32.ofCode (rmField b)) (.disp8 d)⟩ : ModRM), c2)) fun _ => .pure _
  · exact Stable.bind stable_fetch32
      (g := fun d c2 => .ok ((⟨regField b, .mem (Reg32.ofCode (rmField b)) (.disp32 d)⟩ : ModRM), c2)) fun _ => .pure _

theorem stable_resolve : Stable resolve :=
  Stable.bind stable_fetch8 stable_resolveAfter

theorem stable_withByte (k : Byte → Instr) : Stable (fun c => withByte c k) :=
  Stable.bind stable_fetch8 fun _ => .pure _

theorem stable_withWord (k : Word → Instr) : Stable (fun c => withWord c k) :=
  Stable.bind stable_fetch32 fun _ => .pure _

theorem stable_withModRM {k : ModRM → Cursor → Except DecodeError (Instr × Cursor)} (h : ∀ m, Stable (k m)) :
    Stable (fun c => withModRM c k) :=
  Stable.bind stable_resolve h

theorem stable_decodeGroup83 (m : ModRM) : Stable (decodeGroup83 m) := by
  have cases8 : ∀ x : BitVec 3, x = 0 ∨ x = 5 ∨ x = 7 ∨ x = 1 ∨ x = 2 ∨ x = 3 ∨ x = 4 ∨ x = 6 := by decide
  obtain ⟨g, m⟩ := m
  rcases cases8 g with h | h | h | h | h | h | h | h <;> subst h
  · exact stable_withByte _
  · exact stable_withByte _
  · exact stable_withByte _
  all_goals exact .error _

theorem stable_decodeGroupFF (m : ModRM) : Stable (decodeGroupFF m) :=
  .ite (.pure _) (.error _)

theorem stable_decodeGroupF7 (m : ModRM) : Stable (decodeGroupF7 m) :=
  .ite (.pure _) (.error _)

theorem stable_decodeBody (h : Handler) : Stable (decodeBody h) := by
  cases h <;> first
    | exact stable_withByte _
    | exact stable_withWord _
    | exact Stable.pure _
    | exact stable_withModRM stable_decodeGroup83
    | exact stable_withModRM stable_decodeGroupFF
    | exact stable_withModRM stable_decodeGroupF7
    | skip
  · exact stable_withModRM (k := fun m c' => .ok (.cmpR32Rm32 (Reg32.ofCode m.reg) m.rm32, c')) fun _ => .pure _
  · exact stable_withModRM (k := fun m c' => .ok (.addRm32R32 m.rm32 (Reg32.ofCode m.reg), c')) fun _ => .pure _
  · exact stable_withModRM (k := fun m c' => .ok (.movRm32R32 m.rm32 (Reg32.ofCode m.reg), c')) fun _ => .pure _
  · exact stable_withModRM (k := fun m c' => .ok (.movR32Rm32 (Reg32.ofCode m.reg) m.rm32, c')) fun _ => .pure _
  · exact stable_withModRM (k := fun m c' => .ok (.movR8Rm8 (Reg8.ofCode m.reg) m.rm8, c')) fun _ => .pure _
  · exact stable_withModRM (k := fun m c' => withWord c' (.movRm32Imm32 m.reg m.rm32)) fun m => stable_withWord _

/-- What the decoder makes of a byte sequence, unless it wants more bytes, it makes of it with any bytes after it, below
the end of memory or past the wrap. -/
theorem decodeFrom_extends (bs r w : List Byte) :
    match decode bs with
    | .error e => e.wantsBytes ∨ decodeFrom (bs ++ r) w = .error e
    | .ok x => decodeFrom (bs ++ r) w = .ok x := by
  have h8 := stable_fetch8 ⟨0, bs, []⟩ ⟨0, bs ++ r, w⟩ ⟨rfl, rfl, r, rfl⟩
  unfold decode decodeFrom
  simp only [bind, Except.bind]
  rcases h1 : fetch8 ⟨0, bs, []⟩ with e | ⟨op, c1⟩ <;> rw [h1] at h8 <;> simp only at h8 ⊢
  · rcases h8 with h8 | h8
    · exact .inl h8
    · exact .inr (by rw [h8])
  · obtain ⟨d1, h2, h3⟩ := h8
    rw [h2]
    simp only
    rcases dispatch op with _ | hh
    · exact .inr rfl
    · have hb := stable_decodeBody hh c1 d1 h3
      simp only
      rcases hc : decodeBody hh c1 with e | ⟨j, c2⟩ <;> rw [hc] at hb <;> simp only at hb ⊢
      · rcases hb with h | h
        · exact .inl h
        · exact .inr (by rw [h])
      · obtain ⟨d2, h4, h5⟩ := hb
        rw [h4]
        simp only [pure, Except.pure, h5.1]

end Sys2Proof
end

