-- ==== Sys2Proof/Laws/Flags.lean ====
section
/-! SUPPORT. The laws of the flag ALU that callers cite in place of its definition. -/

namespace Sys2Proof.Machine

/-- The truncated result is the difference modulo 2^W. -/
theorem truncatedDifference_eq {W : Nat} (a b : BitVec W) : truncatedDifference a b = a - b := by
  apply BitVec.eq_of_toInt_eq
  rw [truncatedDifference, fullDifference, BitVec.toInt_ofInt, BitVec.toInt_sub, BitVec.toInt_eq_toNat_bmod a,
    BitVec.toInt_eq_toNat_bmod b, Int.bmod_sub_bmod, Int.sub_bmod_bmod]

theorem flagSub_zf {W : Nat} (a b : BitVec W) : (flagSub a b).zf = decide (a - b = 0) := by
  simp [flagSub, truncatedDifference_eq]

theorem flagSub_sf {W : Nat} (a b : BitVec W) : (flagSub a b).sf = (a - b).msb := by
  simp [flagSub, truncatedDifference_eq]

theorem flagSub_cf {W : Nat} (a b : BitVec W) : (flagSub a b).cf = decide (a.toNat < b.toNat) := rfl

theorem flagSub_of {W : Nat} (a b : BitVec W) :
    (flagSub a b).of = ((a.msb != b.msb) && ((a - b).msb != a.msb)) := by
  simp [flagSub, truncatedDifference_eq]

end Sys2Proof.Machine
end

