-- ==== Sys2Proof/Laws/State.lean ====
section
/-! SUPPORT. One lemma per field per update of the state, each by rfl, and the laws of the register file. -/

namespace Sys2Proof.Machine

section Fields
variable (s : State) (r : Reg32) (r8 : Reg8) (v : Word) (b : Byte) (f : Flags) (bs : List Byte) (e : StopError) (n : Nat)

@[simp] theorem set32_regs : (s.set32 r v).regs = s.regs.set r v := rfl
@[simp] theorem set32_eip : (s.set32 r v).eip = s.eip := rfl
@[simp] theorem set32_flags : (s.set32 r v).flags = s.flags := rfl
@[simp] theorem set32_mem : (s.set32 r v).mem = s.mem := rfl
@[simp] theorem set32_status : (s.set32 r v).status = s.status := rfl
@[simp] theorem set32_outTrace : (s.set32 r v).outTrace = s.outTrace := rfl
@[simp] theorem set32_portIn : (s.set32 r v).portIn = s.portIn := rfl
@[simp] theorem set32_inPos : (s.set32 r v).inPos = s.inPos := rfl
@[simp] theorem set32_cfg : (s.set32 r v).cfg = s.cfg := rfl
@[simp] theorem set32_draw : (s.set32 r v).draw = s.draw := rfl

@[simp] theorem set8_eip : (s.set8 r8 b).eip = s.eip := rfl
@[simp] theorem set8_flags : (s.set8 r8 b).flags = s.flags := rfl
@[simp] theorem set8_mem : (s.set8 r8 b).mem = s.mem := rfl
@[simp] theorem set8_status : (s.set8 r8 b).status = s.status := rfl
@[simp] theorem set8_outTrace : (s.set8 r8 b).outTrace = s.outTrace := rfl
@[simp] theorem set8_portIn : (s.set8 r8 b).portIn = s.portIn := rfl
@[simp] theorem set8_inPos : (s.set8 r8 b).inPos = s.inPos := rfl
@[simp] theorem set8_cfg : (s.set8 r8 b).cfg = s.cfg := rfl
@[simp] theorem set8_draw : (s.set8 r8 b).draw = s.draw := rfl

@[simp] theorem setEip_regs : (s.setEip v).regs = s.regs := rfl
@[simp] theorem setEip_eip : (s.setEip v).eip = v := rfl
@[simp] theorem setEip_flags : (s.setEip v).flags = s.flags := rfl
@[simp] theorem setEip_mem : (s.setEip v).mem = s.mem := rfl
@[simp] theorem setEip_status : (s.setEip v).status = s.status := rfl
@[simp] theorem setEip_outTrace : (s.setEip v).outTrace = s.outTrace := rfl
@[simp] theorem setEip_portIn : (s.setEip v).portIn = s.portIn := rfl
@[simp] theorem setEip_inPos : (s.setEip v).inPos = s.inPos := rfl
@[simp] theorem setEip_cfg : (s.setEip v).cfg = s.cfg := rfl
@[simp] theorem setEip_draw : (s.setEip v).draw = s.draw := rfl

@[simp] theorem jumpRel_regs : (s.jumpRel v).regs = s.regs := rfl
@[simp] theorem jumpRel_eip : (s.jumpRel v).eip = s.eip + v := rfl
@[simp] theorem jumpRel_flags : (s.jumpRel v).flags = s.flags := rfl
@[simp] theorem jumpRel_mem : (s.jumpRel v).mem = s.mem := rfl
@[simp] theorem jumpRel_status : (s.jumpRel v).status = s.status := rfl
@[simp] theorem jumpRel_outTrace : (s.jumpRel v).outTrace = s.outTrace := rfl
@[simp] theorem jumpRel_portIn : (s.jumpRel v).portIn = s.portIn := rfl
@[simp] theorem jumpRel_inPos : (s.jumpRel v).inPos = s.inPos := rfl
@[simp] theorem jumpRel_cfg : (s.jumpRel v).cfg = s.cfg := rfl
@[simp] theorem jumpRel_draw : (s.jumpRel v).draw = s.draw := rfl

@[simp] theorem setFlags_regs : (s.setFlags f).regs = s.regs := rfl
@[simp] theorem setFlags_eip : (s.setFlags f).eip = s.eip := rfl
@[simp] theorem setFlags_flags : (s.setFlags f).flags = f := rfl
@[simp] theorem setFlags_mem : (s.setFlags f).mem = s.mem := rfl
@[simp] theorem setFlags_status : (s.setFlags f).status = s.status := rfl
@[simp] theorem setFlags_outTrace : (s.setFlags f).outTrace = s.outTrace := rfl
@[simp] theorem setFlags_portIn : (s.setFlags f).portIn = s.portIn := rfl
@[simp] theorem setFlags_inPos : (s.setFlags f).inPos = s.inPos := rfl
@[simp] theorem setFlags_cfg : (s.setFlags f).cfg = s.cfg := rfl
@[simp] theorem setFlags_draw : (s.setFlags f).draw = s.draw := rfl

@[simp] theorem emit_regs : (s.emit bs).regs = s.regs := rfl
@[simp] theorem emit_eip : (s.emit bs).eip = s.eip := rfl
@[simp] theorem emit_flags : (s.emit bs).flags = s.flags := rfl
@[simp] theorem emit_mem : (s.emit bs).mem = s.mem := rfl
@[simp] theorem emit_status : (s.emit bs).status = s.status := rfl
@[simp] theorem emit_outTrace : (s.emit bs).outTrace = s.outTrace ++ bs.map (fun b => (serialPort, b)) := rfl
@[simp] theorem emit_portIn : (s.emit bs).portIn = s.portIn := rfl
@[simp] theorem emit_inPos : (s.emit bs).inPos = s.inPos := rfl
@[simp] theorem emit_cfg : (s.emit bs).cfg = s.cfg := rfl
@[simp] theorem emit_draw : (s.emit bs).draw = s.draw := rfl

@[simp] theorem advance_regs : (s.advance n).regs = s.regs := rfl
@[simp] theorem advance_eip : (s.advance n).eip = s.eip + BitVec.ofNat 32 n := rfl
@[simp] theorem advance_flags : (s.advance n).flags = s.flags := rfl
@[simp] theorem advance_mem : (s.advance n).mem = s.mem := rfl
@[simp] theorem advance_status : (s.advance n).status = s.status := rfl
@[simp] theorem advance_outTrace : (s.advance n).outTrace = s.outTrace := rfl
@[simp] theorem advance_portIn : (s.advance n).portIn = s.portIn := rfl
@[simp] theorem advance_inPos : (s.advance n).inPos = s.inPos := rfl
@[simp] theorem advance_cfg : (s.advance n).cfg = s.cfg := rfl
@[simp] theorem advance_draw : (s.advance n).draw = s.draw := rfl

@[simp] theorem stopAtDispatch_regs : (s.stopAtDispatch e).regs = s.regs := rfl
@[simp] theorem stopAtDispatch_eip : (s.stopAtDispatch e).eip = s.eip := rfl
@[simp] theorem stopAtDispatch_flags : (s.stopAtDispatch e).flags = s.flags := rfl
@[simp] theorem stopAtDispatch_mem : (s.stopAtDispatch e).mem = s.mem := rfl
@[simp] theorem stopAtDispatch_status : (s.stopAtDispatch e).status = .stopped e := rfl
@[simp] theorem stopAtDispatch_outTrace : (s.stopAtDispatch e).outTrace = s.outTrace := rfl
@[simp] theorem stopAtDispatch_portIn : (s.stopAtDispatch e).portIn = s.portIn := rfl
@[simp] theorem stopAtDispatch_inPos : (s.stopAtDispatch e).inPos = s.inPos := rfl
@[simp] theorem stopAtDispatch_cfg : (s.stopAtDispatch e).cfg = s.cfg := rfl
@[simp] theorem stopAtDispatch_draw : (s.stopAtDispatch e).draw = s.draw := rfl

@[simp] theorem stopInHandler_status : (s.stopInHandler e).status = .stopped e := rfl
@[simp] theorem stopInHandler_outTrace : (s.stopInHandler e).outTrace = s.outTrace := rfl
@[simp] theorem stopInHandler_portIn : (s.stopInHandler e).portIn = s.portIn := rfl
@[simp] theorem stopInHandler_cfg : (s.stopInHandler e).cfg = s.cfg := rfl
@[simp] theorem stopInHandler_mem :
    (s.stopInHandler e).mem = Memory.place s.cfg.memSize [] (Config.freeMemory s.draw) := rfl
@[simp] theorem stopInHandler_draw : (s.stopInHandler e).draw = s.draw + 1 := rfl

end Fields

/-! ### Register reads through updates -/

@[simp] theorem Regs.get_set_same (rs : Regs) (r : Reg32) (v : Word) : (rs.set r v).get r = v := by
  cases r <;> rfl

theorem Regs.get_set (rs : Regs) (r q : Reg32) (v : Word) :
    (rs.set r v).get q = if q = r then v else rs.get q := by
  cases r <;> cases q <;> rfl

theorem Regs.get_set_ne (rs : Regs) {r q : Reg32} (v : Word) (h : q ≠ r) : (rs.set r v).get q = rs.get q := by
  rw [Regs.get_set, if_neg h]

@[simp] theorem Regs.set_get (rs : Regs) (r : Reg32) : rs.set r (rs.get r) = rs := by
  cases r <;> rfl

@[simp] theorem Regs.set_set (rs : Regs) (r : Reg32) (v w : Word) : (rs.set r v).set r w = rs.set r w := by
  cases r <;> rfl

@[simp] theorem get32_set32_same (s : State) (r : Reg32) (v : Word) : (s.set32 r v).get32 r = v :=
  Regs.get_set_same _ _ _

theorem get32_set32 (s : State) (r q : Reg32) (v : Word) :
    (s.set32 r v).get32 q = if q = r then v else s.get32 q :=
  Regs.get_set _ _ _ _

theorem get32_set32_ne (s : State) {r q : Reg32} (v : Word) (h : q ≠ r) : (s.set32 r v).get32 q = s.get32 q :=
  Regs.get_set_ne _ _ h

@[simp] theorem get32_setEip (s : State) (v : Word) (q : Reg32) : (s.setEip v).get32 q = s.get32 q := rfl
@[simp] theorem get32_jumpRel (s : State) (v : Word) (q : Reg32) : (s.jumpRel v).get32 q = s.get32 q := rfl
@[simp] theorem get32_setFlags (s : State) (f : Flags) (q : Reg32) : (s.setFlags f).get32 q = s.get32 q := rfl
@[simp] theorem get32_emit (s : State) (bs : List Byte) (q : Reg32) : (s.emit bs).get32 q = s.get32 q := rfl
@[simp] theorem get32_advance (s : State) (n : Nat) (q : Reg32) : (s.advance n).get32 q = s.get32 q := rfl

/-! ### The 8-bit views -/

@[simp] theorem viewGet_viewSet_same (high : Bool) (w : Word) (v : Byte) : viewGet high (viewSet high w v) = v := by
  cases high <;> simp only [viewGet, viewSet, if_true, if_false, Bool.false_eq_true] <;> ext i hi <;>
    simp only [BitVec.getElem_extractLsb', BitVec.getLsbD_append, BitVec.getLsbD_extractLsb'] <;>
    interval_cases i <;> simp

/-- The other view of the same slot is not touched. -/
@[simp] theorem viewGet_viewSet_other (high : Bool) (w : Word) (v : Byte) :
    viewGet (!high) (viewSet high w v) = viewGet (!high) w := by
  cases high <;> simp only [viewGet, viewSet, Bool.not_true, Bool.not_false, if_true, if_false, Bool.false_eq_true] <;>
    ext i hi <;> simp only [BitVec.getElem_extractLsb', BitVec.getLsbD_append, BitVec.getLsbD_extractLsb'] <;>
    interval_cases i <;> simp

@[simp] theorem get8_set8_same (s : State) (r : Reg8) (v : Byte) : (s.set8 r v).get8 r = v := by
  simp [State.get8, State.set8]

theorem get32_set8_ne (s : State) (r : Reg8) (v : Byte) {q : Reg32} (h : q ≠ owner r) :
    (s.set8 r v).get32 q = s.get32 q :=
  get32_set32_ne _ _ h

end Sys2Proof.Machine
end

