-- ==== Sys2Proof/Laws/Memory.lean ====
section
/-! SUPPORT. The laws of the memory array: a read after a write, and that every operation keeps the canonical form and the bounds. -/

namespace Sys2Proof.Machine

/-! ### One byte -/

theorem Memory.read_eq_unlisted_of_lt {m : Memory} {a : Nat} (h : ∀ c ∈ m, a < c.1) : m.read a = Memory.unlisted := by
  induction m with
  | nil => rfl
  | cons c m ih =>
    have hc := h c (by simp)
    simp only [Memory.read]
    rw [if_neg (by omega), ih (fun d hd => h d (by simp [hd]))]

theorem Memory.read_cons_ne {m : Memory} {a x : Nat} (v : Byte) (h : x ≠ a) : (Memory.cons a v m).read x = m.read x := by
  unfold Memory.cons
  split
  · rfl
  · simp only [Memory.read, if_neg (Ne.symm h)]

theorem Memory.read_cons_same {m : Memory} {a : Nat} (v : Byte) (h : ∀ c ∈ m, a < c.1) :
    (Memory.cons a v m).read a = v := by
  unfold Memory.cons
  split
  · rename_i hv
    rw [Memory.read_eq_unlisted_of_lt h, hv]
  · simp [Memory.read]

/-- A write leaves every other address alone. -/
theorem Memory.read_write_ne {m : Memory} {a x : Nat} (v : Byte) (h : x ≠ a) : (m.write a v).read x = m.read x := by
  induction m with
  | nil => exact Memory.read_cons_ne v h
  | cons c m ih =>
    simp only [Memory.write]
    split
    · exact Memory.read_cons_ne v h
    · split
      · rename_i hk
        simp only [Memory.read_cons_ne v h, Memory.read, if_neg (show ¬ c.1 = x by omega)]
      · simp only [Memory.read, ih]

theorem Memory.wf_tail {c : Host.Cell} {m : Memory} (h : Memory.wf (c :: m)) : Memory.wf m :=
  ⟨(List.pairwise_cons.mp h.1).2, fun d hd => h.2 d (by simp [hd])⟩

theorem Memory.wf_head_lt {c : Host.Cell} {m : Memory} (h : Memory.wf (c :: m)) : ∀ d ∈ m, c.1 < d.1 :=
  (List.pairwise_cons.mp h.1).1

/-- A read after a write to the same address gives the byte written. -/
theorem Memory.read_write_same {m : Memory} (a : Nat) (v : Byte) (h : Memory.wf m) : (m.write a v).read a = v := by
  induction m with
  | nil => exact Memory.read_cons_same v (by simp)
  | cons c m ih =>
    have hlt := Memory.wf_head_lt h
    simp only [Memory.write]
    split
    · rename_i hk
      refine Memory.read_cons_same v ?_
      intro d hd
      rcases List.mem_cons.mp hd with rfl | hd
      · exact hk
      · have := hlt d hd
        omega
    · split
      · rename_i hk
        exact Memory.read_cons_same v (by intro d hd; have := hlt d hd; omega)
      · rename_i hk
        simp only [Memory.read, if_neg hk, ih (Memory.wf_tail h)]

theorem Memory.read_write {m : Memory} (a x : Nat) (v : Byte) (h : Memory.wf m) :
    (m.write a v).read x = if x = a then v else m.read x := by
  split
  · rename_i hx
    rw [hx, Memory.read_write_same a v h]
  · rename_i hx
    exact Memory.read_write_ne v hx

/-! ### The canonical form and the bounds -/

theorem Memory.mem_cons_sub {a : Nat} {v : Byte} {m : Memory} {c : Host.Cell} (h : c ∈ Memory.cons a v m) :
    c = (a, v) ∨ c ∈ m := by
  unfold Memory.cons at h
  split at h
  · exact .inr h
  · simpa using h

theorem Memory.mem_write_sub {m : Memory} {a : Nat} {v : Byte} {c : Host.Cell} (h : c ∈ m.write a v) :
    c = (a, v) ∨ c ∈ m := by
  induction m with
  | nil => exact Memory.mem_cons_sub h
  | cons d m ih =>
    simp only [Memory.write] at h
    split at h
    · exact Memory.mem_cons_sub h
    · split at h
      · rcases Memory.mem_cons_sub h with h | h
        · exact .inl h
        · exact .inr (by simp [h])
      · rcases List.mem_cons.mp h with rfl | h
        · exact .inr (by simp)
        · rcases ih h with h | h
          · exact .inl h
          · exact .inr (by simp [h])

theorem Memory.wf_cons {a : Nat} (v : Byte) {m : Memory} (h : Memory.wf m) (hlt : ∀ c ∈ m, a < c.1) :
    Memory.wf (Memory.cons a v m) := by
  unfold Memory.cons
  split
  · exact h
  · rename_i hv
    refine ⟨List.pairwise_cons.mpr ⟨hlt, h.1⟩, ?_⟩
    intro c hc
    rcases List.mem_cons.mp hc with rfl | hc
    · exact hv
    · exact h.2 c hc

/-- A write keeps the canonical form. -/
theorem Memory.wf_write {m : Memory} (a : Nat) (v : Byte) (h : Memory.wf m) : Memory.wf (m.write a v) := by
  induction m with
  | nil => exact Memory.wf_cons v h (by simp)
  | cons c m ih =>
    have hlt := Memory.wf_head_lt h
    simp only [Memory.write]
    split
    · rename_i hk
      refine Memory.wf_cons v h ?_
      intro d hd
      rcases List.mem_cons.mp hd with rfl | hd
      · exact hk
      · have := hlt d hd
        omega
    · split
      · rename_i hk
        exact Memory.wf_cons v (Memory.wf_tail h) (by intro d hd; have := hlt d hd; omega)
      · rename_i hlt' hk
        refine ⟨List.pairwise_cons.mpr ⟨?_, (ih (Memory.wf_tail h)).1⟩, ?_⟩
        · intro d hd
          rcases Memory.mem_write_sub hd with rfl | hd
          · show c.1 < a
            omega
          · exact hlt d hd
        · intro d hd
          rcases List.mem_cons.mp hd with rfl | hd
          · exact h.2 _ (by simp)
          · exact (ih (Memory.wf_tail h)).2 d hd

theorem Memory.wf_nil : Memory.wf [] :=
  ⟨List.Pairwise.nil, by simp⟩

theorem Memory.inside_write {m : Memory} {a n : Nat} (v : Byte) (h : ∀ c ∈ m, c.1 < n) (ha : a < n) :
    ∀ c ∈ m.write a v, c.1 < n := by
  intro c hc
  rcases Memory.mem_write_sub hc with rfl | hc
  · exact ha
  · exact h c hc

/-! ### Several bytes -/

@[simp] theorem Memory.readBytes_length (m : Memory) (a n : Nat) : (m.readBytes a n).length = n := by
  induction n generalizing a with
  | zero => rfl
  | succ n ih => simp [Memory.readBytes, ih]

theorem Memory.readBytes_getElem (m : Memory) (a n k : Nat) (h : k < (m.readBytes a n).length) :
    (m.readBytes a n)[k] = m.read (a + k) := by
  induction n generalizing a k with
  | zero => simp at h
  | succ n ih =>
    cases k with
    | zero => simp [Memory.readBytes]
    | succ k =>
      simp only [Memory.readBytes, List.getElem_cons_succ]
      rw [ih]
      congr 1
      omega

/-- Reading in two parts. -/
theorem Memory.readBytes_add (m : Memory) (a j k : Nat) :
    m.readBytes a (j + k) = m.readBytes a j ++ m.readBytes (a + j) k := by
  induction j generalizing a with
  | zero => simp [Memory.readBytes]
  | succ j ih =>
    rw [show j + 1 + k = (j + k) + 1 by omega]
    simp only [Memory.readBytes, ih, List.cons_append]
    rw [show a + 1 + j = a + (j + 1) by omega]

theorem Memory.wf_writeBytes {m : Memory} (a : Nat) (bs : List Byte) (h : Memory.wf m) :
    Memory.wf (m.writeBytes a bs) := by
  induction bs generalizing m a with
  | nil => exact h
  | cons b bs ih => exact ih (a + 1) (Memory.wf_write a b h)

theorem Memory.inside_writeBytes {m : Memory} {a n : Nat} (bs : List Byte) (h : ∀ c ∈ m, c.1 < n)
    (ha : a + bs.length ≤ n) : ∀ c ∈ m.writeBytes a bs, c.1 < n := by
  induction bs generalizing m a with
  | nil => exact h
  | cons b bs ih =>
    simp only [List.length_cons] at ha
    exact ih (Memory.inside_write b h (by omega)) (by omega)

/-- Stored bytes leave every address outside them alone. -/
theorem Memory.read_writeBytes_outside {m : Memory} {a x : Nat} (bs : List Byte) (h : x < a ∨ a + bs.length ≤ x) :
    (m.writeBytes a bs).read x = m.read x := by
  induction bs generalizing m a with
  | nil => rfl
  | cons b bs ih =>
    simp only [List.length_cons] at h
    simp only [Memory.writeBytes]
    rw [ih (by omega), Memory.read_write_ne b (by omega)]

/-- Stored bytes read back, each at its own address. -/
theorem Memory.read_writeBytes_inside {m : Memory} {a : Nat} (bs : List Byte) (k : Nat) (hk : k < bs.length)
    (h : Memory.wf m) : (m.writeBytes a bs).read (a + k) = bs[k] := by
  induction bs generalizing m a k with
  | nil => simp at hk
  | cons b bs ih =>
    simp only [Memory.writeBytes]
    cases k with
    | zero => rw [Memory.read_writeBytes_outside bs (by omega)]; simpa using Memory.read_write_same a b h
    | succ k =>
      simp only [List.length_cons] at hk
      rw [show a + (k + 1) = (a + 1) + k by omega, ih k (by omega) (Memory.wf_write a b h)]
      simp

/-- What is stored is what a read of the same bytes gives. -/
theorem Memory.readBytes_writeBytes {m : Memory} (a : Nat) (bs : List Byte) (h : Memory.wf m) :
    (m.writeBytes a bs).readBytes a bs.length = bs := by
  apply List.ext_getElem (by simp)
  intro k h1 h2
  rw [Memory.readBytes_getElem, Memory.read_writeBytes_inside bs k h2 h]

theorem Memory.wf_place {size : Nat} {m : Memory} (cs : List Host.Cell) (h : Memory.wf m) :
    Memory.wf (Memory.place size m cs) := by
  induction cs generalizing m with
  | nil => exact h
  | cons c cs ih =>
    simp only [Memory.place]
    refine ih ?_
    split
    · exact Memory.wf_write _ _ h
    · exact h

theorem Memory.inside_place {size : Nat} {m : Memory} (cs : List Host.Cell) (h : ∀ c ∈ m, c.1 < size) :
    ∀ c ∈ Memory.place size m cs, c.1 < size := by
  induction cs generalizing m with
  | nil => exact h
  | cons c cs ih =>
    simp only [Memory.place]
    refine ih ?_
    split
    · rename_i hc
      exact Memory.inside_write _ h hc
    · exact h

end Sys2Proof.Machine
end

