-- ==== Sys2Proof/Laws/Ops.lean ====
section
/-! SUPPORT. One lemma per shared operation that says once everything it can do. -/

namespace Sys2Proof.Machine

/-! ### Memory accesses -/

/-- `s` with bytes stored at an address. -/
def State.withBytes (s : State) (a : Nat) (bs : List Byte) : State :=
  { s with mem := s.mem.writeBytes a bs }

section WithBytes
variable (s : State) (a : Nat) (bs : List Byte)

@[simp] theorem withBytes_regs : (s.withBytes a bs).regs = s.regs := rfl
@[simp] theorem withBytes_eip : (s.withBytes a bs).eip = s.eip := rfl
@[simp] theorem withBytes_flags : (s.withBytes a bs).flags = s.flags := rfl
@[simp] theorem withBytes_mem : (s.withBytes a bs).mem = s.mem.writeBytes a bs := rfl
@[simp] theorem withBytes_status : (s.withBytes a bs).status = s.status := rfl
@[simp] theorem withBytes_outTrace : (s.withBytes a bs).outTrace = s.outTrace := rfl
@[simp] theorem withBytes_portIn : (s.withBytes a bs).portIn = s.portIn := rfl
@[simp] theorem withBytes_inPos : (s.withBytes a bs).inPos = s.inPos := rfl
@[simp] theorem withBytes_cfg : (s.withBytes a bs).cfg = s.cfg := rfl
@[simp] theorem withBytes_draw : (s.withBytes a bs).draw = s.draw := rfl
@[simp] theorem get32_withBytes (q : Reg32) : (s.withBytes a bs).get32 q = s.get32 q := rfl

end WithBytes

theorem inBounds_iff (s : State) (a : Word) (n : Nat) : s.inBounds a n = true ↔ a.toNat + n ≤ s.cfg.memSize := by
  simp [State.inBounds]

theorem memRead_of_fits {s : State} {a : Word} {n : Nat} (h : a.toNat + n ≤ s.cfg.memSize) :
    s.memRead a n = .ok (leNat (s.mem.readBytes a.toNat n)) :=
  if_pos ((inBounds_iff s a n).mpr h)

theorem memRead_of_not_fits {s : State} {a : Word} {n : Nat} (h : ¬ a.toNat + n ≤ s.cfg.memSize) :
    s.memRead a n = .error (.outOfBounds a n) :=
  if_neg (fun hb => h ((inBounds_iff s a n).mp hb))

theorem memWrite_of_fits {s : State} {a : Word} {n v : Nat} (h : a.toNat + n ≤ s.cfg.memSize) :
    s.memWrite a n v = .ok (s.withBytes a.toNat (leBytes n v)) :=
  if_pos ((inBounds_iff s a n).mpr h)

theorem memWrite_of_not_fits {s : State} {a : Word} {n v : Nat} (h : ¬ a.toNat + n ≤ s.cfg.memSize) :
    s.memWrite a n v = .error (.outOfBounds a n) :=
  if_neg (fun hb => h ((inBounds_iff s a n).mp hb))

/-- The word that four bytes in memory make. -/
def State.word (s : State) (a : Nat) : Word :=
  BitVec.ofNat 32 (leNat (s.mem.readBytes a 4))

theorem memRead32_of_fits {s : State} {a : Word} (h : a.toNat + 4 ≤ s.cfg.memSize) :
    s.memRead32 a = .ok (s.word a.toNat) := by
  rw [State.memRead32, memRead_of_fits h]
  rfl

theorem memRead32_of_not_fits {s : State} {a : Word} (h : ¬ a.toNat + 4 ≤ s.cfg.memSize) :
    s.memRead32 a = .error (.outOfBounds a 4) := by
  rw [State.memRead32, memRead_of_not_fits h]
  rfl

theorem memRead8_of_fits {s : State} {a : Word} (h : a.toNat + 1 ≤ s.cfg.memSize) :
    s.memRead8 a = .ok (s.byteAt a.toNat) := by
  rw [State.memRead8, memRead_of_fits h]
  simp [Memory.readBytes, leNat, State.byteAt, Except.map]

theorem memRead8_of_not_fits {s : State} {a : Word} (h : ¬ a.toNat + 1 ≤ s.cfg.memSize) :
    s.memRead8 a = .error (.outOfBounds a 1) := by
  rw [State.memRead8, memRead_of_not_fits h]
  rfl

theorem memWrite32_of_fits {s : State} {a : Word} (v : Word) (h : a.toNat + 4 ≤ s.cfg.memSize) :
    s.memWrite32 a v = .ok (s.withBytes a.toNat (wordBytes v)) :=
  memWrite_of_fits h

theorem memWrite32_of_not_fits {s : State} {a : Word} (v : Word) (h : ¬ a.toNat + 4 ≤ s.cfg.memSize) :
    s.memWrite32 a v = .error (.outOfBounds a 4) :=
  memWrite_of_not_fits h

/-- Everything a 32-bit read can do. -/
theorem memRead32_cases (s : State) (a : Word) :
    (a.toNat + 4 ≤ s.cfg.memSize ∧ s.memRead32 a = .ok (s.word a.toNat)) ∨
    (¬ a.toNat + 4 ≤ s.cfg.memSize ∧ s.memRead32 a = .error (.outOfBounds a 4)) := by
  by_cases h : a.toNat + 4 ≤ s.cfg.memSize
  · exact .inl ⟨h, memRead32_of_fits h⟩
  · exact .inr ⟨h, memRead32_of_not_fits h⟩

/-- Everything a 32-bit write can do. -/
theorem memWrite32_cases (s : State) (a v : Word) :
    (a.toNat + 4 ≤ s.cfg.memSize ∧ s.memWrite32 a v = .ok (s.withBytes a.toNat (wordBytes v))) ∨
    (¬ a.toNat + 4 ≤ s.cfg.memSize ∧ s.memWrite32 a v = .error (.outOfBounds a 4)) := by
  by_cases h : a.toNat + 4 ≤ s.cfg.memSize
  · exact .inl ⟨h, memWrite32_of_fits v h⟩
  · exact .inr ⟨h, memWrite32_of_not_fits v h⟩

/-! ### The stack -/

/-- Everything a push can do (R40). -/
theorem push32_cases (s : State) (v : Word) :
    ((s.get32 .esp - 4).toNat + 4 ≤ s.cfg.memSize ∧
      s.push32 v = .ok ((s.set32 .esp (s.get32 .esp - 4)).withBytes (s.get32 .esp - 4).toNat (wordBytes v))) ∨
    (¬ (s.get32 .esp - 4).toNat + 4 ≤ s.cfg.memSize ∧
      s.push32 v = .error (.outOfBounds (s.get32 .esp - 4) 4)) :=
  memWrite32_cases (s.set32 .esp (s.get32 .esp - 4)) (s.get32 .esp - 4) v

/-- Everything a pop can do (R41). -/
theorem pop32_cases (s : State) :
    ((s.get32 .esp).toNat + 4 ≤ s.cfg.memSize ∧
      s.pop32 = .ok (s.word (s.get32 .esp).toNat, s.set32 .esp (s.get32 .esp + 4))) ∨
    (¬ (s.get32 .esp).toNat + 4 ≤ s.cfg.memSize ∧ s.pop32 = .error (.outOfBounds (s.get32 .esp) 4)) := by
  rcases memRead32_cases s (s.get32 .esp) with ⟨h, hr⟩ | ⟨h, hr⟩
  · exact .inl ⟨h, by rw [State.pop32, hr]; rfl⟩
  · exact .inr ⟨h, by rw [State.pop32, hr]; rfl⟩

/-! ### Operands -/

/-- Everything a read of a 32-bit operand can do (R59). -/
theorem getRM32_cases (s : State) (m : RM Reg32) :
    (∃ v, s.getRM32 m = .ok v) ∨
    (∃ base d, m = .mem base d ∧ ¬ (s.effAddr base d).toNat + 4 ≤ s.cfg.memSize ∧
      s.getRM32 m = .error (.outOfBounds (s.effAddr base d) 4)) := by
  cases m with
  | reg r => exact .inl ⟨_, rfl⟩
  | mem base d =>
    rcases memRead32_cases s (s.effAddr base d) with ⟨_, hr⟩ | ⟨h, hr⟩
    · exact .inl ⟨_, hr⟩
    · exact .inr ⟨base, d, rfl, h, hr⟩

/-- Everything a read of an 8-bit operand can do (R60). -/
theorem getRM8_cases (s : State) (m : RM Reg8) :
    (∃ v, s.getRM8 m = .ok v) ∨
    (∃ base d, m = .mem base d ∧ ¬ (s.effAddr base d).toNat + 1 ≤ s.cfg.memSize ∧
      s.getRM8 m = .error (.outOfBounds (s.effAddr base d) 1)) := by
  cases m with
  | reg r => exact .inl ⟨_, rfl⟩
  | mem base d =>
    by_cases h : (s.effAddr base d).toNat + 1 ≤ s.cfg.memSize
    · exact .inl ⟨_, memRead8_of_fits h⟩
    · exact .inr ⟨base, d, rfl, h, memRead8_of_not_fits h⟩

/-- Everything a write of a 32-bit operand can do (R59). -/
theorem setRM32_cases (s : State) (m : RM Reg32) (v : Word) :
    (∃ r, m = .reg r ∧ s.setRM32 m v = .ok (s.set32 r v)) ∨
    (∃ base d, m = .mem base d ∧ (s.effAddr base d).toNat + 4 ≤ s.cfg.memSize ∧
      s.setRM32 m v = .ok (s.withBytes (s.effAddr base d).toNat (wordBytes v))) ∨
    (∃ base d, m = .mem base d ∧ ¬ (s.effAddr base d).toNat + 4 ≤ s.cfg.memSize ∧
      s.setRM32 m v = .error (.outOfBounds (s.effAddr base d) 4)) := by
  cases m with
  | reg r => exact .inl ⟨r, rfl, rfl⟩
  | mem base d =>
    rcases memWrite32_cases s (s.effAddr base d) v with ⟨h, hr⟩ | ⟨h, hr⟩
    · exact .inr (.inl ⟨base, d, rfl, h, hr⟩)
    · exact .inr (.inr ⟨base, d, rfl, h, hr⟩)

/-! ### The end of a handler -/

@[simp] theorem finish_ok (s t : State) : s.finish (.ok t) = .next t := rfl

@[simp] theorem finish_error (s : State) (e : StopError) : s.finish (.error e) = .next (s.stopInHandler e) := rfl

/-- Everything the end of a handler can be (R82). -/
theorem finish_cases {s t : State} {r : Except StopError State} (h : s.finish r = .next t) :
    r = .ok t ∨ ∃ e, r = .error e ∧ t = s.stopInHandler e := by
  cases r with
  | ok u => exact .inl (by simpa [State.finish] using h)
  | error e => exact .inr ⟨e, rfl, by simpa [State.finish] using h.symm⟩

/-- A handler ends in a next state whatever it finds. -/
theorem finish_next (s : State) (r : Except StopError State) : ∃ t, s.finish r = .next t := by
  cases r with
  | ok t => exact ⟨t, rfl⟩
  | error e => exact ⟨_, rfl⟩

/-! ### The bytes that fetch takes (20_memory.md R38, R45) -/

theorem fetchWindow_length (s : State) : s.fetchWindow.length = min maxLength (s.cfg.memSize - s.eip.toNat) :=
  Memory.readBytes_length _ _ _

theorem fetchWindow_getElem (s : State) (k : Nat) (h : k < s.fetchWindow.length) :
    s.fetchWindow[k] = s.byteAt (s.eip.toNat + k) :=
  Memory.readBytes_getElem _ _ _ _ h

theorem wrapWindow_length (s : State) :
    s.wrapWindow.length = if s.cfg.memSize = 4294967296 then maxLength else 0 := by
  unfold State.wrapWindow
  split <;> simp

theorem wrapWindow_getElem (s : State) (k : Nat) (h : k < s.wrapWindow.length) : s.wrapWindow[k] = s.byteAt k := by
  have hs : s.cfg.memSize = 4294967296 := by
    by_contra hn
    simp [wrapWindow_length, hn] at h
  simp only [State.wrapWindow, if_pos hs, Memory.readBytes_getElem, Nat.zero_add]
  rfl

/-- A byte of memory after a word is stored (R34): a byte of the word at its four addresses, the old byte elsewhere. -/
theorem byteAt_withBytes_wordBytes (s : State) (hs : Memory.wf s.mem) (a : Nat) (v : Word) (x : Nat) :
    (s.withBytes a (wordBytes v)).byteAt x =
      if a ≤ x ∧ x < a + 4 then v.extractLsb' (8 * (x - a)) 8 else s.byteAt x := by
  split
  case isFalse h => exact Memory.read_writeBytes_outside _ (by simp; omega)
  case isTrue h =>
    obtain ⟨k, rfl⟩ : ∃ k, x = a + k := ⟨x - a, by omega⟩
    have hk : k < 4 := by omega
    simp only [State.byteAt, withBytes_mem]
    rw [Memory.read_writeBytes_inside _ k (by simpa using hk) hs, Nat.add_sub_cancel_left]
    apply BitVec.eq_of_toNat_eq
    simp only [wordBytes, leBytes_getElem, BitVec.extractLsb'_toNat, BitVec.toNat_ofNat, Nat.shiftRight_eq_div_pow]
    interval_cases k <;> rfl

/-! ### The invariant -/

theorem Inv.of_mem_eq {s t : State} (h : s.Inv) (hm : t.mem = s.mem) (hc : t.cfg = s.cfg) : t.Inv where
  wf := hm ▸ h.wf
  inside := by rw [hm, hc]; exact h.inside
  size := hc ▸ h.size

theorem Inv.withBytes {s : State} (h : s.Inv) (a : Nat) (bs : List Byte) (hf : a + bs.length ≤ s.cfg.memSize) :
    (s.withBytes a bs).Inv where
  wf := Memory.wf_writeBytes a bs h.wf
  inside := Memory.inside_writeBytes bs h.inside hf
  size := h.size

/-- A stop inside a handler keeps the invariant, whatever memory the free value gives. -/
theorem Inv.stopInHandler {s : State} (h : s.Inv) (e : StopError) : (s.stopInHandler e).Inv where
  wf := Memory.wf_place _ Memory.wf_nil
  inside := Memory.inside_place _ (by simp)
  size := h.size

end Sys2Proof.Machine
end

