-- ==== Sys2Proof/Laws/PerInstr.lean ====
section
/-! SUPPORT. Statements about every instruction, one lemma per constructor. The family EncodeLength: an encoding has the length that its format gives it (30_encoding.md R51). -/

namespace Sys2Proof.Laws.EncodeLength

/-- The encoder gives as many bytes as the format has. -/
def Statement (i : Instr) : Prop :=
  (encode i).length = i.length

theorem encodeRM_length {R : Type} (code : R → BitVec 3) (g : BitVec 3) (m : RM R) :
    (encodeRM code g m).length = 1 + m.dispLength := by
  cases m with
  | reg r => rfl
  | mem base d => cases d <;> simp [encodeRM, RM.dispLength]

theorem jmpRel32 (rel : Word) : Statement (.jmpRel32 rel) := by
  simp [Statement, encode, Instr.length]

theorem jsRel8 (rel : Byte) : Statement (.jsRel8 rel) :=
  rfl

theorem jzRel8 (rel : Byte) : Statement (.jzRel8 rel) :=
  rfl

theorem jleRel8 (rel : Byte) : Statement (.jleRel8 rel) :=
  rfl

theorem cmpAlImm8 (imm : Byte) : Statement (.cmpAlImm8 imm) :=
  rfl

theorem cmpR32Rm32 (r : Reg32) (m : RM Reg32) : Statement (.cmpR32Rm32 r m) := by
  simp [Statement, encode, Instr.length, encodeRM_length]
  omega

theorem cmpRm32Imm8 (m : RM Reg32) (imm : Byte) : Statement (.cmpRm32Imm8 m imm) := by
  simp [Statement, encode, Instr.length, encodeRM_length]
  omega

theorem addRm32R32 (m : RM Reg32) (r : Reg32) : Statement (.addRm32R32 m r) := by
  simp [Statement, encode, Instr.length, encodeRM_length]
  omega

theorem addRm32Imm8 (m : RM Reg32) (imm : Byte) : Statement (.addRm32Imm8 m imm) := by
  simp [Statement, encode, Instr.length, encodeRM_length]
  omega

theorem subRm32Imm8 (m : RM Reg32) (imm : Byte) : Statement (.subRm32Imm8 m imm) := by
  simp [Statement, encode, Instr.length, encodeRM_length]
  omega

theorem movRm32R32 (m : RM Reg32) (r : Reg32) : Statement (.movRm32R32 m r) := by
  simp [Statement, encode, Instr.length, encodeRM_length]
  omega

theorem movR32Rm32 (r : Reg32) (m : RM Reg32) : Statement (.movR32Rm32 r m) := by
  simp [Statement, encode, Instr.length, encodeRM_length]
  omega

theorem movR8Rm8 (r : Reg8) (m : RM Reg8) : Statement (.movR8Rm8 r m) := by
  simp [Statement, encode, Instr.length, encodeRM_length]
  omega

theorem movRm32Imm32 (ignored : BitVec 3) (m : RM Reg32) (imm : Word) : Statement (.movRm32Imm32 ignored m imm) := by
  simp [Statement, encode, Instr.length, encodeRM_length]
  omega

theorem movR8Imm8 (r : Reg8) (imm : Byte) : Statement (.movR8Imm8 r imm) :=
  rfl

theorem movR32Imm32 (r : Reg32) (imm : Word) : Statement (.movR32Imm32 r imm) := by
  simp [Statement, encode, Instr.length]

theorem incRm32 (m : RM Reg32) : Statement (.incRm32 m) := by
  simp [Statement, encode, Instr.length, encodeRM_length]
  omega

theorem incR32 (r : Reg32) : Statement (.incR32 r) :=
  rfl

theorem pushR32 (r : Reg32) : Statement (.pushR32 r) :=
  rfl

theorem popR32 (r : Reg32) : Statement (.popR32 r) :=
  rfl

theorem pushImm8 (imm : Byte) : Statement (.pushImm8 imm) :=
  rfl

theorem callRel32 (rel : Word) : Statement (.callRel32 rel) := by
  simp [Statement, encode, Instr.length]

theorem ret : Statement (.ret) :=
  rfl

theorem leave : Statement (.leave) :=
  rfl

theorem negRm32 (m : RM Reg32) : Statement (.negRm32 m) := by
  simp [Statement, encode, Instr.length, encodeRM_length]
  omega

theorem intImm8 (vec : Byte) : Statement (.intImm8 vec) :=
  rfl

theorem inAlDx : Statement (.inAlDx) :=
  rfl

theorem outDxAl : Statement (.outDxAl) :=
  rfl

end Sys2Proof.Laws.EncodeLength
end

