-- ==== Sys2Proof/Tests/Slice0.lean ====
section
/-! SUPPORT. Tests. Every expected value is the spec's own: an encoding of 30_encoding.md R51 and R66 written out bit by bit, or a worked example or vector of 95_test_vectors.md, named at each test. Then one witness for each obligation that has hypotheses. -/

namespace Sys2Proof.Tests

open Sys2Proof.Machine Sys2Proof.Claims

/-! ### Well-formedness: each check refuses an ill-formed term (R58) -/

/-- Base ESP, for each displacement width. -/
theorem test_wf_refuses_esp_base :
    RM.wf (.mem .esp .none : RM Reg32) = false ∧ RM.wf (.mem .esp (.disp8 8) : RM Reg32) = false ∧
    RM.wf (.mem .esp (.disp32 8) : RM Reg8) = false := by decide

/-- Base EBP without a displacement; with one it is well formed. -/
theorem test_wf_refuses_bare_ebp :
    RM.wf (.mem .ebp .none : RM Reg32) = false ∧ RM.wf (.mem .ebp (.disp8 0) : RM Reg32) = true := by decide

/-- Every ModRM form checks its operand. -/
theorem test_wf_checks_every_modrm_form :
    Instr.wf (.cmpR32Rm32 .eax (.mem .esp .none)) = false ∧
    Instr.wf (.cmpRm32Imm8 (.mem .esp .none) 0) = false ∧
    Instr.wf (.addRm32R32 (.mem .esp .none) .eax) = false ∧
    Instr.wf (.addRm32Imm8 (.mem .ebp .none) 0) = false ∧
    Instr.wf (.subRm32Imm8 (.mem .ebp .none) 0) = false ∧
    Instr.wf (.movRm32R32 (.mem .ebp .none) .eax) = false ∧
    Instr.wf (.movR32Rm32 .eax (.mem .esp (.disp8 1))) = false ∧
    Instr.wf (.movR8Rm8 .al (.mem .esp .none)) = false ∧
    Instr.wf (.movRm32Imm32 0 (.mem .esp (.disp32 1)) 0) = false ∧
    Instr.wf (.incRm32 (.mem .ebp .none)) = false ∧
    Instr.wf (.negRm32 (.mem .esp .none)) = false := by decide

/-! ### Decoding: words written out from the encodings of R51, R66 and the vectors V30 to V48 -/

theorem test_decode_jumps :
    decode [0b11101001, 0x10, 0x00, 0x00, 0x00] = .ok (.jmpRel32 0x10, 5) ∧
    decode [0b01111000, 0x02] = .ok (.jsRel8 0x02, 2) ∧
    decode [0b01110100, 0x06] = .ok (.jzRel8 0x06, 2) ∧
    decode [0b01111110, 0xF9] = .ok (.jleRel8 0xF9, 2) := by decide

theorem test_decode_compares :
    decode [0b00111100, 0x05] = .ok (.cmpAlImm8 0x05, 2) ∧
    decode [0b00111011, 0b11_001_010] = .ok (.cmpR32Rm32 .ecx (.reg .edx), 2) ∧
    decode [0b10000011, 0b01_111_101, 0x08, 0x00] = .ok (.cmpRm32Imm8 (.mem .ebp (.disp8 0x08)) 0, 4) := by decide

theorem test_decode_arithmetic :
    decode [0b00000001, 0b11_001_000] = .ok (.addRm32R32 (.reg .eax) .ecx, 2) ∧
    decode [0b10000011, 0b00_000_011, 0x01] = .ok (.addRm32Imm8 (.mem .ebx .none) 0x01, 3) ∧
    decode [0b10000011, 0b11_101_000, 0x02] = .ok (.subRm32Imm8 (.reg .eax) 0x02, 3) ∧
    decode [0b11110111, 0b01_011_101, 0xFC] = .ok (.negRm32 (.mem .ebp (.disp8 0xFC)), 3) := by decide

theorem test_decode_increments :
    decode [0b11111111, 0b01_000_101, 0xFC] = .ok (.incRm32 (.mem .ebp (.disp8 0xFC)), 3) ∧
    decode [0b01000_111] = .ok (.incR32 .edi, 1) := by decide

theorem test_decode_moves :
    decode [0b10001001, 0b11_100_101] = .ok (.movRm32R32 (.reg .ebp) .esp, 2) ∧
    decode [0b10001011, 0b10_000_101, 0x00, 0x01, 0x00, 0x00] =
      .ok (.movR32Rm32 .eax (.mem .ebp (.disp32 0x100)), 6) ∧
    decode [0b10001010, 0b11_000_100] = .ok (.movR8Rm8 .al (.reg .ah), 2) ∧
    decode [0b11000111, 0b01_000_101, 0xFC, 0x78, 0x56, 0x34, 0x12] =
      .ok (.movRm32Imm32 0 (.mem .ebp (.disp8 0xFC)) 0x12345678, 7) ∧
    decode [0b10110_100, 0x0E] = .ok (.movR8Imm8 .ah 0x0E, 2) ∧
    decode [0b10111_100, 0x00, 0x01, 0x00, 0x00] = .ok (.movR32Imm32 .esp 0x100, 5) := by decide

theorem test_decode_stack :
    decode [0b01010_001] = .ok (.pushR32 .ecx, 1) ∧
    decode [0b01011_111] = .ok (.popR32 .edi, 1) ∧
    decode [0b01101010, 0x09] = .ok (.pushImm8 0x09, 2) ∧
    decode [0b11101000, 0x01, 0x00, 0x00, 0x00] = .ok (.callRel32 1, 5) ∧
    decode [0b11000011] = .ok (.ret, 1) ∧
    decode [0b11001001] = .ok (.leave, 1) := by decide

theorem test_decode_external :
    decode [0b11001101, 0x10] = .ok (.intImm8 0x10, 2) ∧
    decode [0b11101100] = .ok (.inAlDx, 1) ∧
    decode [0b11101110] = .ok (.outDxAl, 1) := by decide

/-- V33, V34, V38: one opcode, three addressing forms. -/
theorem test_decode_operand_forms :
    decode [0x8B, 0x03] = .ok (.movR32Rm32 .eax (.mem .ebx .none), 2) ∧
    decode [0x8B, 0xC3] = .ok (.movR32Rm32 .eax (.reg .ebx), 2) ∧
    decode [0x8B, 0xC4] = .ok (.movR32Rm32 .eax (.reg .esp), 2) := by decide

/-- V35 to V37 and V47: the unsupported patterns, before any further byte and before the group check. -/
theorem test_decode_refuses_unsupported_addressing :
    decode [0x8B, 0x04, 0x24] = .error (.unsupportedAddressing 0x04) ∧
    decode [0x8B, 0x44, 0x24, 0x08] = .error (.unsupportedAddressing 0x44) ∧
    decode [0x8B, 0x05, 0x00, 0x10, 0x00, 0x00] = .error (.unsupportedAddressing 0x05) ∧
    decode [0x83, 0x14, 0x24, 0x01] = .error (.unsupportedAddressing 0x14) := by decide

/-- V43 (unknown opcodes), V44 to V46 (unmapped group slots). -/
theorem test_decode_refuses_unknown :
    decode [0x90] = .error (.unknownOpcode 0x90) ∧ decode [0xF4] = .error (.unknownOpcode 0xF4) ∧
    decode [0x66] = .error (.unknownOpcode 0x66) ∧ decode [0x48] = .error (.unknownOpcode 0x48) ∧
    decode [0x83, 0xC8, 0x01] = .error (.unmappedGroup 0x83 1) ∧
    decode [0xFF, 0xE0] = .error (.unmappedGroup 0xFF 4) ∧
    decode [0xF7, 0xC0, 0x01, 0x00, 0x00, 0x00] = .error (.unmappedGroup 0xF7 0) := by decide

/-- V39, V192, V193: a missing byte is reported where its fetch stands, after the group check. -/
theorem test_decode_end_of_stream :
    decode [] = .error (.endOfStream 0 1) ∧ decode [0x8B, 0x45] = .error (.endOfStream 2 1) ∧
    decode [0x83, 0xD0] = .error (.unmappedGroup 0x83 2) ∧ decode [0x83, 0xC0] = .error (.endOfStream 2 1) := by
  decide

/-- The encoder gives the same words (V41, V48). -/
theorem test_encode :
    encode (.movRm32Imm32 0 (.mem .ebp (.disp32 0x100)) 0x12345678) =
      [0xC7, 0x85, 0x00, 0x01, 0x00, 0x00, 0x78, 0x56, 0x34, 0x12] ∧
    encode (.movR8Imm8 .ah 0x0E) = [0xB4, 0x0E] ∧ encode (.cmpR32Rm32 .ecx (.reg .edx)) = [0x3B, 0xCA] := by decide

/-! ### Words as spec/opcode_table.json numbers them -/

/-- Rows 1 to 14, at their match values. -/
theorem test_table_words_first :
    decodeTableWord 16 0xE900 = some (.jmpRel32 0) ∧ decodeTableWord 16 0x7800 = some (.jsRel8 0) ∧
    decodeTableWord 16 0x7400 = some (.jzRel8 0) ∧ decodeTableWord 16 0x7E00 = some (.jleRel8 0) ∧
    decodeTableWord 16 0x3C00 = some (.cmpAlImm8 0) ∧
    decodeTableWord 16 0x3B00 = some (.cmpR32Rm32 .eax (.mem .eax .none)) ∧
    decodeTableWord 16 0x8338 = some (.cmpRm32Imm8 (.mem .eax .none) 0) ∧
    decodeTableWord 16 0x0100 = some (.addRm32R32 (.mem .eax .none) .eax) ∧
    decodeTableWord 16 0x8300 = some (.addRm32Imm8 (.mem .eax .none) 0) ∧
    decodeTableWord 16 0x8328 = some (.subRm32Imm8 (.mem .eax .none) 0) ∧
    decodeTableWord 16 0x8900 = some (.movRm32R32 (.mem .eax .none) .eax) ∧
    decodeTableWord 16 0x8B00 = some (.movR32Rm32 .eax (.mem .eax .none)) ∧
    decodeTableWord 16 0x8A00 = some (.movR8Rm8 .al (.mem .eax .none)) ∧
    decodeTableWord 16 0xC700 = some (.movRm32Imm32 0 (.mem .eax .none) 0) := by decide

/-- Rows 15 to 28, at their match values; the last by its opcode byte alone. -/
theorem test_table_words_second :
    decodeTableWord 16 0xB000 = some (.movR8Imm8 .al 0) ∧ decodeTableWord 16 0xB800 = some (.movR32Imm32 .eax 0) ∧
    decodeTableWord 16 0xFF00 = some (.incRm32 (.mem .eax .none)) ∧
    decodeTableWord 16 0x4000 = some (.incR32 .eax) ∧ decodeTableWord 16 0x5000 = some (.pushR32 .eax) ∧
    decodeTableWord 16 0x5800 = some (.popR32 .eax) ∧ decodeTableWord 16 0x6A00 = some (.pushImm8 0) ∧
    decodeTableWord 16 0xE800 = some (.callRel32 0) ∧ decodeTableWord 16 0xC300 = some .ret ∧
    decodeTableWord 16 0xC900 = some .leave ∧ decodeTableWord 16 0xF718 = some (.negRm32 (.mem .eax .none)) ∧
    decodeTableWord 16 0xCD00 = some (.intImm8 0) ∧ decodeTableWord 16 0xEC00 = some .inAlDx ∧
    decodeTableWord 16 0xEE00 = some .outDxAl ∧ decodeTableWord 8 0xEE = some .outDxAl := by decide

/-! ### One step on a small core -/

/-- A created core with 0x100 bytes of memory. -/
def small : State :=
  State.create { defaultConfig with memSize := 0x100 }

/-- A created core with 0x40 bytes of memory. -/
def tiny : State :=
  State.create { defaultConfig with memSize := 0x40 }

/-- Bytes stored from an address up. -/
def put (s : State) (a : Nat) (bs : List Byte) : State :=
  { s with mem := s.mem.writeBytes a bs }

/-- The instruction bytes at `eip` = a. -/
def code (s : State) (a : Word) (bs : List Byte) : State :=
  { put s a.toNat bs with eip := a }

/-- Other flags. -/
def withFlags (s : State) (cf zf sf of : Bool) : State :=
  { s with flags := ⟨cf, zf, sf, of⟩ }

/-- Whether a result is a next state with a property. -/
def nextWith (r : Result) (p : State → Bool) : Bool :=
  match r with
  | .next t => p t
  | .fault _ => false
  | .refused _ => false

/-- Whether a result is a next state stopped with this kind of error. -/
def stopsWith (r : Result) (k : StopKind) : Bool :=
  match r with
  | .next t => match t.status with
    | .running => false
    | .stopped e => e.kind == k
  | .fault _ => false
  | .refused _ => false

/-- V50, V52: the sum wraps modulo 2^32. -/
theorem test_jmp :
    nextWith (step (code small 0x10 [0xE9, 0xE0, 0xFF, 0xFF, 0xFF])) (fun t => t.eip == 0xFFFFFFF5) = true := by decide

/-- V54, V55. -/
theorem test_js :
    nextWith (step (code (withFlags small false false true false) 0x11 [0x78, 0x02])) (fun t => t.eip == 0x15) = true ∧
    nextWith (step (code small 0x11 [0x78, 0x02])) (fun t => t.eip == 0x13) = true := by decide

/-- V56, V57. -/
theorem test_jz :
    nextWith (step (code (withFlags small false true false false) 0x0B [0x74, 0x06])) (fun t => t.eip == 0x13) = true ∧
    nextWith (step (code small 0x0B [0x74, 0x06])) (fun t => t.eip == 0x0D) = true := by decide

/-- V60: taken for (ZF, SF, OF) = (0, 0, 1), not taken for (0, 1, 1). -/
theorem test_jle :
    nextWith (step (code (withFlags small false false false true) 0x14 [0x7E, 0xF9])) (fun t => t.eip == 0x0F) = true ∧
    nextWith (step (code (withFlags small true false true true) 0x14 [0x7E, 0xF9])) (fun t => t.eip == 0x16) = true := by
  decide

/-- V71: width 8 overflows; under `CMP_AL_WIDTH` = 32 no flag is set. -/
theorem test_cmp_al :
    nextWith (step (code (small.set32 .eax 0x80) 0 [0x3C, 0x01]))
      (fun t => t.flags == ⟨false, false, false, true⟩ && t.get32 .eax == 0x80) = true ∧
    nextWith (step (code ({ small with cfg := { small.cfg with cmpAlWidth := .w32 } }.set32 .eax 0x80) 0 [0x3C, 0x01]))
      (fun t => t.flags == ⟨false, false, false, false⟩) = true := by decide

/-- V75 (a memory operand, signed overflow) and R101's example (the direction). -/
theorem test_cmp_r32 :
    nextWith (step (code (put ((small.set32 .eax 0x80000000).set32 .ebx 0x30) 0x30 [1]) 0 [0x3B, 0x03]))
      (fun t => t.flags == ⟨false, false, false, true⟩) = true ∧
    nextWith (step (code ((small.set32 .ecx 2).set32 .edx 5) 0 [0x3B, 0xCA]))
      (fun t => t.flags == ⟨true, false, true, false⟩) = true := by decide

/-- V77, V79: the immediate is sign-extended. -/
theorem test_cmp_rm32_imm8 :
    nextWith (step (code (small.set32 .eax 5) 0 [0x83, 0xF8, 0xFF]))
      (fun t => t.flags == ⟨true, false, false, false⟩) = true ∧
    nextWith (step (code small 0 [0x83, 0xF8, 0x7F])) (fun t => t.flags == ⟨true, false, true, false⟩) = true := by decide

/-- V91 (wraps, flags kept) and V93 (a memory destination). -/
theorem test_add_rm32_r32 :
    nextWith (step (code (withFlags ((small.set32 .eax 0xFFFFFFFF).set32 .ecx 1) false false true false) 0 [0x01, 0xC8]))
      (fun t => t.get32 .eax == 0 && t.flags == ⟨false, false, true, false⟩) = true ∧
    nextWith (step (code (put ((small.set32 .ebx 0x30).set32 .ecx 0x10) 0x30 [0xF8, 0xFF, 0xFF, 0xFF]) 0 [0x01, 0x0B]))
      (fun t => t.memRead32 0x30 == .ok 8 && t.get32 .ebx == 0x30) = true := by decide

/-- V94. -/
theorem test_add_rm32_imm8 :
    nextWith (step (code small 0 [0x83, 0xC0, 0xFF])) (fun t => t.get32 .eax == 0xFFFFFFFF) = true := by decide

/-- V99 (result and flags), V101 (a stop by default; under `wrap` 0x11 and the borrow). -/
theorem test_sub_rm32_imm8 :
    nextWith (step (code (small.set32 .eax 0x80000000) 0 [0x83, 0xE8, 0x01]))
      (fun t => t.get32 .eax == 0x7FFFFFFF && t.flags == ⟨false, false, false, true⟩) = true ∧
    stopsWith (step (code (small.set32 .eax 0x10) 0 [0x83, 0xE8, 0xFF])) .arithmeticUnderflow = true ∧
    nextWith (step (code ({ small with cfg := { small.cfg with subUnderflow := .wrap } }.set32 .eax 0x10) 0
      [0x83, 0xE8, 0xFF])) (fun t => t.get32 .eax == 0x11 && t.flags == ⟨true, false, false, false⟩) = true := by decide

/-- V111. -/
theorem test_mov_rm32_r32 :
    nextWith (step (code ((small.set32 .ebp 0x74).set32 .eax 0xFFFFFFF9) 0 [0x89, 0x45, 0xFC]))
      (fun t => t.mem.readBytes 0x70 4 == [0xF9, 0xFF, 0xFF, 0xFF] && t.eip == 3) = true := by decide

/-- V112, and V116 (a 4-byte read at the last byte). -/
theorem test_mov_r32_rm32 :
    nextWith (step (code (put (small.set32 .ebp 0x74) 0x7C [9]) 0 [0x8B, 0x45, 0x08])) (fun t => t.get32 .eax == 9) = true ∧
    stopsWith (step (code (tiny.set32 .ebx 0x3F) 0 [0x8B, 0x03])) .outOfBounds = true := by decide

/-- V115 (`rm` = 100 is AH) and V113 (one byte of memory). -/
theorem test_mov_r8_rm8 :
    nextWith (step (code (small.set32 .eax 0x11223344) 0 [0x8A, 0xC4])) (fun t => t.get32 .eax == 0x11223333) = true ∧
    nextWith (step (code (put (small.set32 .ebx 0x30) 0x30 [0xFF, 0xFF]) 0 [0x8A, 0x0B]))
      (fun t => t.get32 .ecx == 0xFF) = true := by decide

/-- V117, and V119's bytes (`reg` = 1 is ignored): ModRM 0xC8 has `rm` = 000, so the destination is EAX by R55 and R59;
V119 writes ECX there, and the rules win (notes/assumptions/20.md). -/
theorem test_mov_rm32_imm32 :
    nextWith (step (code (small.set32 .ebx 0x30) 0 [0xC7, 0x03, 0xFE, 0xFF, 0xFF, 0xFF]))
      (fun t => t.memRead32 0x30 == .ok 0xFFFFFFFE) = true ∧
    nextWith (step (code small 0 [0xC7, 0xC8, 0x78, 0x56, 0x34, 0x12]))
      (fun t => t.get32 .eax == 0x12345678 && t.get32 .ecx == 0) = true := by decide

/-- V121, V122. -/
theorem test_mov_r8_imm8 :
    nextWith (step (code (small.set32 .eax 0xFFFFFFFF) 0 [0xB0, 0x41])) (fun t => t.get32 .eax == 0xFFFFFF41) = true ∧
    nextWith (step (code (small.set32 .ebx 0x11223344) 0 [0xB7, 0xFF])) (fun t => t.get32 .ebx == 0x1122FF44) = true := by
  decide

/-- V123. -/
theorem test_mov_r32_imm32 :
    nextWith (step (code small 0 [0xB8, 0x78, 0x56, 0x34, 0x12])) (fun t => t.get32 .eax == 0x12345678) = true := by decide

/-- V134, and V135 (a read at the edge of memory). -/
theorem test_inc_rm32 :
    nextWith (step (code (put (small.set32 .ebp 0x74) 0x70 [0xF9, 0xFF, 0xFF, 0xFF]) 0 [0xFF, 0x45, 0xFC]))
      (fun t => t.memRead32 0x70 == .ok 0xFFFFFFFA) = true ∧
    stopsWith (step (code (tiny.set32 .ebx 0x3D) 0 [0xFF, 0x03])) .outOfBounds = true := by decide

/-- V131, V3. -/
theorem test_inc_r32 :
    nextWith (step (code (small.set32 .eax 0xFFFFFFFF) 0 [0x40]))
      (fun t => t.get32 .eax == 0 && t.flags == ⟨false, false, false, false⟩) = true ∧
    nextWith (step (code (small.set32 .esp 0x40) 0 [0x44])) (fun t => t.get32 .esp == 0x41) = true := by decide

/-- V140 (`push esp` stores the old esp) and V21 (unaligned, the bytes in order). -/
theorem test_push_r32 :
    nextWith (step (code (small.set32 .esp 0x40) 0 [0x54]))
      (fun t => t.get32 .esp == 0x3C && t.memRead32 0x3C == .ok 0x40) = true ∧
    nextWith (step (code ((tiny.set32 .esp 0x3F).set32 .eax 0xDDCCBBAA) 0 [0x50]))
      (fun t => t.get32 .esp == 0x3B && t.mem.readBytes 0x3B 4 == [0xAA, 0xBB, 0xCC, 0xDD]) = true := by decide

/-- V141 (`pop esp` leaves the popped word) and V145 (an empty stack at the top of memory). -/
theorem test_pop_r32 :
    nextWith (step (code (put (small.set32 .esp 0x3C) 0x3C [0x20]) 0 [0x5C])) (fun t => t.get32 .esp == 0x20) = true ∧
    stopsWith (step (code (tiny.set32 .esp 0x40) 0 [0x58])) .outOfBounds = true := by decide

/-- V142, V144. -/
theorem test_push_imm8 :
    nextWith (step (code (small.set32 .esp 0x80) 0 [0x6A, 0xFF]))
      (fun t => t.get32 .esp == 0x7C && t.memRead32 0x7C == .ok 0xFFFFFFFF) = true ∧
    stopsWith (step (code small 0 [0x6A, 0x00])) .outOfBounds = true := by decide

/-- V148. -/
theorem test_call :
    nextWith (step (code (small.set32 .esp 0x80) 0x50 [0xE8, 0xAB, 0xFF, 0xFF, 0xFF]))
      (fun t => t.memRead32 0x7C == .ok 0x55 && t.get32 .esp == 0x7C && t.eip == 0) = true := by decide

/-- V149. -/
theorem test_ret :
    nextWith (step (code (put (small.set32 .esp 0x78) 0x78 [1, 2, 3, 4]) 0 [0xC3]))
      (fun t => t.eip == 0x04030201 && t.get32 .esp == 0x7C) = true := by decide

/-- V150, V151. -/
theorem test_leave :
    nextWith (step (code (put ((small.set32 .ebp 0x74).set32 .esp 0x10) 0x74 [0xDD, 0xCC, 0xBB, 0xAA]) 0 [0xC9]))
      (fun t => t.get32 .esp == 0x78 && t.get32 .ebp == 0xAABBCCDD) = true ∧
    stopsWith (step (code (tiny.set32 .ebp 0x3E) 0 [0xC9])) .outOfBounds = true := by decide

/-- V162, V164. -/
theorem test_neg :
    nextWith (step (code (small.set32 .eax 0x80000000) 0 [0xF7, 0xD8])) (fun t => t.get32 .eax == 0x80000000) = true ∧
    nextWith (step (code (put (small.set32 .ebp 0x74) 0x70 [1]) 0 [0xF7, 0x5D, 0xFC]))
      (fun t => t.memRead32 0x70 == .ok 0xFFFFFFFF) = true := by decide

/-- V171: only BL[3:0] is read, and the bytes of `VideoFormat(0x41, 7, 0)` go to port 0x3F8. -/
theorem test_int_video :
    step (code ((small.set32 .eax 0x0E41).set32 .ebx 0xFFFFFFF7) 0 [0xCD, 0x10]) =
      .next { code ((small.set32 .eax 0x0E41).set32 .ebx 0xFFFFFFF7) 0 [0xCD, 0x10] with
        eip := 2
        outTrace := (Config.videoFormat 0x41 7 false).map fun b => ((0x3F8 : Port), b) } := by rfl

/-- V173, V174. -/
theorem test_int_stops :
    stopsWith (step (code (small.set32 .eax 0x41) 0 [0xCD, 0x10])) .unimplementedInterruptVector = true ∧
    stopsWith (step (code small 0 [0xCD, 0x80])) .unimplementedInterruptVector = true := by decide

/-- V184, V185. -/
theorem test_in :
    nextWith (step (code (({ small with portIn := [0x61] }.set32 .edx 0x3F8).set32 .eax 0x12345600) 0 [0xEC]))
      (fun t => t.get32 .eax == 0x12345661 && t.inPos == 1) = true ∧
    nextWith (step (code (({ small with portIn := [0x61] }.set32 .edx 0x80).set32 .eax 0x12345641) 0 [0xEC]))
      (fun t => t.get32 .eax == 0x12345600 && t.inPos == 0) = true := by decide

/-- V186: no input, so the core is blocked, not stopped. -/
theorem test_in_blocks : step (code (small.set32 .edx 0x3F8) 0 [0xEC]) = .fault .blockedOnInput := by rfl

/-- V181, V182. -/
theorem test_out :
    nextWith (step (code ((small.set32 .edx 0x103F8).set32 .eax 0x41) 0 [0xEE]))
      (fun t => t.outTrace == [(0x3F8, 0x41)]) = true ∧
    stopsWith (step (code (small.set32 .edx 0x3F9) 0 [0xEE])) .unimplementedPort = true := by decide

/-- V190, V191: dispatch-level stops change nothing else. -/
theorem test_dispatch_stops_are_precise :
    nextWith (step { tiny with eip := 0x40 })
      (fun t => t == { tiny with eip := 0x40, status := .stopped (.endOfStream 0x40 1) }) = true ∧
    nextWith (step (code tiny 0x3F [0xF4]))
      (fun t => t == { code tiny 0x3F [0xF4] with status := .stopped (.unimplementedOpcode 0xF4 none) }) = true := by
  decide

/-- V196. -/
theorem test_stopped_has_no_step :
    step { small with status := .stopped (.unimplementedOpcode 0xF4 none) } =
      .fault (.halted (.unimplementedOpcode 0xF4 none)) := by rfl

/-- V195: a missing encoding byte is reported before the operand is touched. -/
theorem test_missing_byte_before_operand :
    stopsWith (step (code (tiny.set32 .ebx 0x40) 0x3E [0x83, 0x2B])) .endOfStream = true := by decide

/-- The words of the host's placing run first after reset: one of each family. -/
theorem test_fetch_word_runs_after_reset :
    nextWith (step (State.reset.withFetchWord 16 0x6A09)) (fun t => t.get32 .esp == 0xFFFFFFFC) = true ∧
    nextWith (step (State.reset.withFetchWord 16 0xB412)) (fun t => t.get32 .eax == 0x1200) = true ∧
    nextWith (step (State.reset.withFetchWord 16 0x7802)) (fun t => t.eip == 2) = true ∧
    nextWith (step (State.reset.withFetchWord 16 0x83C0)) (fun t => t.eip == 3) = true ∧
    nextWith (step (State.reset.withFetchWord 16 0xC300)) (fun t => t.get32 .esp == 4) = true := by decide

/-! ### Witnesses: for each obligation with hypotheses, concrete inputs that meet all of them, for each clause -/

theorem small_inv : small.Inv :=
  ⟨by decide, by decide, by decide⟩

theorem tiny_inv : tiny.Inv :=
  ⟨by decide, by decide, by decide⟩

/-- A core whose memory fills the address space. -/
def whole : State :=
  State.create defaultConfig

theorem witness_DecodeInvertsEncode : Instr.wf (.movRm32Imm32 7 (.mem .ebp (.disp32 0xFFFFFFFF)) 0x80000000) = true := by
  decide

theorem witness_EncodeInvertsDecode_and_DecodedLengthIsOneToTen :
    decode [0xC7, 0xBD, 0xFF, 0xFF, 0xFF, 0xFF, 0x00, 0x00, 0x00, 0x80, 0x90] =
      .ok (.movRm32Imm32 7 (.mem .ebp (.disp32 0xFFFFFFFF)) 0x80000000, 10) ∧ decode [0xC3] = .ok (.ret, 1) := by decide

theorem witness_StepRunsTheDecodedInstruction :
    (code small 0xFF [0xC3]).status = .running ∧ (code small 0xFF [0xC3]).decodeNext = .ok (.ret, 1) := by decide

theorem witness_StepRunsTheInstructionAtEip :
    (code small 0xFE [0x6A, 0x09]).status = .running ∧ Instr.wf (.pushImm8 9) = true ∧
    BytesAtEip (code small 0xFE [0x6A, 0x09]) (encode (.pushImm8 9)) :=
  ⟨rfl, rfl, by decide, by decide⟩

theorem witness_StoppedCoreHasNoStep :
    (small.stopAtDispatch (.endOfStream 0 1)).status = .stopped (.endOfStream 0 1) := rfl

theorem witness_FetchOutsideMemoryStopsPrecisely :
    ({ tiny with eip := 0x40 } : State).status = .running ∧
    ({ tiny with eip := 0x40 } : State).cfg.memSize ≤ ({ tiny with eip := 0x40 } : State).eip.toNat := by decide

theorem witness_UnknownOpcodeStopsPrecisely :
    (code tiny 0x3F [0xF4]).status = .running ∧ (code tiny 0x3F [0xF4]).eip.toNat < (code tiny 0x3F [0xF4]).cfg.memSize ∧
    ((code tiny 0x3F [0xF4]).byteAt (code tiny 0x3F [0xF4]).eip.toNat).toNat ∉ opcodeBytes := by decide

/-- Both patterns: `rm` = 100 with mod = 10, and mod = 00 with `rm` = 101. -/
theorem witness_UnsupportedAddressingModeStops :
    (code tiny 0x3E [0x8B, 0x84]).status = .running ∧ (0x8B : Byte).toNat ∈ modRMOpcodes ∧
    (Unsupported 0x84 ∧ Unsupported 0x05) ∧ BytesAtEip (code tiny 0x3E [0x8B, 0x84]) [0x8B, 0x84] ∧
    BytesAtEip (code tiny 0x3E [0xFF, 0x05]) [0xFF, 0x05] :=
  ⟨rfl, by decide, ⟨.inl (by decide), .inr (by decide)⟩, ⟨by decide, by decide⟩, by decide, by decide⟩

/-- The three groups; the last with a four-byte displacement. -/
theorem witness_UnmappedGroupSlotStops :
    UnmappedSlot 0x83 0xD0 ∧ UnmappedSlot 0xFF 0xF8 ∧ UnmappedSlot 0xF7 0xA3 ∧
    ¬ Unsupported 0xD0 ∧ ¬ Unsupported 0xF8 ∧ ¬ Unsupported 0xA3 ∧
    ([] : List Byte).length = dispBytes 0xD0 ∧ ([1, 2, 3, 4] : List Byte).length = dispBytes 0xA3 ∧
    BytesAtEip (code tiny 0x3E [0x83, 0xD0]) [0x83, 0xD0] ∧
    BytesAtEip (code tiny 0x3A [0xF7, 0xA3, 1, 2, 3, 4]) [0xF7, 0xA3, 1, 2, 3, 4] := by
  unfold UnmappedSlot Unsupported
  exact ⟨by decide, by decide, by decide, by decide, by decide, by decide, by decide, by decide,
    ⟨by decide, by decide⟩, by decide, by decide⟩

/-- One byte of two there, and none of them. -/
theorem witness_MissingBytesAreEndOfStream :
    (code tiny 0x3F [0x6A]).eip.toNat + 1 = tiny.cfg.memSize ∧ 1 < Instr.length (.pushImm8 9) ∧
    (∀ j, (h : j < 1) → ∀ h' : j < (encode (.pushImm8 9)).length,
      (code tiny 0x3F [0x6A]).byteAt ((code tiny 0x3F [0x6A]).eip.toNat + j) = (encode (.pushImm8 9))[j]) ∧
    (code tiny 0x40 []).eip.toNat + 0 = tiny.cfg.memSize ∧ tiny.cfg.memSize < 4294967296 := by decide

/-- The three clauses. -/
theorem witness_FetchCursorWraps :
    whole.cfg.memSize = 4294967296 ∧ (code whole 0xFFFFFFFF [0x6A]).byteAt 0xFFFFFFFF = 0x6A ∧
    (code whole 0xFFFFFFFF [0xB9]).byteAt 0xFFFFFFFF = 0xB9 ∧
    (code whole 0xFFFFFFFD [0xB9]).byteAt 0xFFFFFFFD = 0xB9 := by decide

/-- A step that goes on and a step that stops inside its handler. -/
theorem witness_StepKeepsInvariant_and_StepOnlyAppendsToTrace :
    (∃ t, small.Inv ∧ step (code small 0 [0x40]) = .next t) ∧
    ∃ t, step (code (tiny.set32 .edx 0x80) 0 [0xEE]) = .next t :=
  ⟨⟨_, small_inv, rfl⟩, _, rfl⟩

/-- The smallest and the largest memory. -/
theorem witness_LoadedCoreMeetsInvariant :
    1 ≤ ({ defaultConfig with memSize := 1 } : Config).memSize ∧ defaultConfig.memSize ≤ 4294967296 := by decide

/-- An image byte at the last address, and an address that the image leaves out. -/
theorem witness_LoadedCoreState :
    (([(0x3F, 0xF4)] : List Host.Cell).Pairwise fun c d => c.1 ≠ d.1) ∧
    (0x3F, (0xF4 : Byte)) ∈ ([(0x3F, 0xF4)] : List Host.Cell) ∧ 0x3F < tiny.cfg.memSize ∧
    ∀ b : Byte, (0x3E, b) ∉ ([(0x3F, 0xF4)] : List Host.Cell) := by
  refine ⟨by decide, by decide, by decide, ?_⟩
  intro b
  simp

theorem witness_RegistersReadBack : Reg32.ebp ≠ Reg32.esp := by decide

/-- View 7 (BH): a bit inside the byte, one below it, and another slot. -/
theorem witness_ByteViewWriteKeepsOtherBytes :
    Reg8.ofCode (BitVec.ofNat 3 7) = .bh ∧ Reg32.ofCode (BitVec.ofNat 3 (7 % 4)) = .ebx ∧ (8 ≤ 15 ∧ 15 < 8 + 8) ∧
    ¬ 8 ≤ 7 ∧ Reg32.edi ≠ .ebx := by decide

/-- Both clauses at the edge: V12, V13. -/
theorem witness_ReadIsTheLittleEndianSum :
    4 ∈ [1, 2, 4] ∧ (0x3D : Word).toNat + 4 > tiny.cfg.memSize ∧ (0x3C : Word).toNat + 4 ≤ tiny.cfg.memSize := by decide

theorem witness_WriteStoresEachByte :
    tiny.Inv ∧ 2 ∈ [1, 2, 4] ∧ 0xFFFF < 2 ^ (8 * 2) ∧ (0x3F : Word).toNat + 2 > tiny.cfg.memSize ∧
    (0x3E : Word).toNat + 2 ≤ tiny.cfg.memSize :=
  ⟨tiny_inv, by decide⟩

theorem witness_NarrowReadSeesPartOfWord : tiny.Inv ∧ ∃ t, tiny.memWrite32 0x3C 0x11223344 = .ok t :=
  ⟨tiny_inv, _, rfl⟩

theorem witness_FetchAgreesWithDataRead :
    (∃ b, (code tiny 0x3C [1, 2, 3, 4]).memRead8 0x3C = .ok b) ∧ (∃ h, (code tiny 0x3C [1, 2, 3, 4]).memRead16 0x3C = .ok h) ∧
    ∃ w, (code tiny 0x3C [1, 2, 3, 4]).memRead32 0x3C = .ok w :=
  ⟨⟨_, rfl⟩, ⟨_, rfl⟩, _, rfl⟩

theorem whole_inv : whole.Inv :=
  ⟨by decide, by decide, by decide⟩

/-- A store over the second byte of the next instruction; and one over the bytes past a wrap. -/
theorem witness_StoreIsSeenByNextFetch :
    (tiny.Inv ∧ ∃ t, tiny.memWrite32 (tiny.eip + 1) 0x11223344 = .ok t ∧ 4 < t.fetchWindow.length) ∧
    whole.Inv ∧ ∃ t, (code whole 0xFFFFFFFF [0x6A]).memWrite32 0 0x11223344 = .ok t ∧ 0 < t.wrapWindow.length :=
  ⟨⟨tiny_inv, _, rfl, by decide⟩, whole_inv, _, rfl, by decide⟩

/-- An unaligned esp at the top of memory. -/
theorem witness_PushThenPopRoundTrip : tiny.Inv ∧ ∃ t, (tiny.set32 .esp 0x3F).push32 0xDDCCBBAA = .ok t :=
  ⟨tiny_inv, _, rfl⟩

/-- The state after the call itself. -/
theorem witness_CallThenRetRoundTrip :
    tiny.Inv ∧ Fits (tiny.set32 .esp 0x40) ((tiny.set32 .esp 0x40).get32 .esp - 4) 4 ∧
    ∃ t, exec (.callRel32 1) (tiny.set32 .esp 0x40) = .next t ∧ t.cfg.memSize = tiny.cfg.memSize := by
  refine ⟨tiny_inv, ?_, _, rfl, rfl⟩
  unfold Fits
  decide

theorem witness_JleAfterCmpIsSignedLessOrEqual :
    Accessible32 (tiny.set32 .ebx 0x3C) (.mem .ebx .none) ∧
    ∃ t, exec (.cmpR32Rm32 .eax (.mem .ebx .none)) (tiny.set32 .ebx 0x3C) = .next t := by
  refine ⟨?_, _, rfl⟩
  unfold Accessible32 Fits
  decide

/-- The three jumps, their last byte the last of memory. -/
theorem witness_ConditionalJumpStep :
    tiny.status = .running ∧ BytesAtEip (code tiny 0x3E [0x78, 0x80]) [0x78, 0x80] ∧
    BytesAtEip (code tiny 0x3E [0x74, 0x7F]) [0x74, 0x7F] ∧ BytesAtEip (code tiny 0x3E [0x7E, 0xFF]) [0x7E, 0xFF] :=
  ⟨rfl, ⟨by decide, by decide⟩, ⟨by decide, by decide⟩, by decide, by decide⟩

/-- Both widths, and a memory operand that ends where memory ends. -/
theorem witness_CompareResults :
    tiny.cfg.cmpAlWidth = .w8 ∧
    ({ tiny with cfg := { tiny.cfg with cmpAlWidth := .w32 } } : State).cfg.cmpAlWidth = .w32 ∧
    Accessible32 (tiny.set32 .ebx 0x3C) (.mem .ebx .none) ∧ Accessible32 tiny (.reg .eax) := by
  unfold Accessible32 Fits
  decide

/-- A memory and a register operand. -/
theorem witness_WrappingArithmeticResults :
    tiny.Inv ∧ Accessible32 (tiny.set32 .ebp 0x40) (.mem .ebp (.disp8 0xFC)) ∧ Accessible32 tiny (.reg .esp) := by
  refine ⟨tiny_inv, ?_⟩
  unfold Accessible32 Fits
  decide

/-- Equal operands, and a borrow under `wrap`. -/
theorem witness_SubResult :
    tiny.Inv ∧ Accessible32 tiny (.reg .eax) ∧
    ((2 : Byte).signExtend 32).toNat ≤ (operand32 (tiny.set32 .eax 2) (.reg .eax)).toNat ∧
    ({ tiny with cfg := { tiny.cfg with subUnderflow := .wrap } } : State).cfg.subUnderflow = .wrap :=
  ⟨tiny_inv, trivial, by decide, rfl⟩

/-- V101. -/
theorem witness_SubUnderflowStops :
    Accessible32 (tiny.set32 .eax 0x10) (.reg .eax) ∧ tiny.cfg.subUnderflow = .fault ∧
    (operand32 (tiny.set32 .eax 0x10) (.reg .eax)).toNat < ((0xFF : Byte).signExtend 32).toNat :=
  ⟨trivial, rfl, by decide⟩

/-- A 4-byte operand and a 1-byte operand that end where memory ends. -/
theorem witness_MoveResults :
    tiny.Inv ∧ Accessible32 (tiny.set32 .ebx 0x3C) (.mem .ebx .none) ∧ Accessible8 (tiny.set32 .ebx 0x3F) (.mem .ebx .none) := by
  refine ⟨tiny_inv, ?_⟩
  unfold Accessible32 Accessible8 Fits
  decide

/-- The first push of a stack placed at the top of memory (V146), the last (esp = 4), and with a full address space one at
esp = 0 (notes/assumptions/32.md). -/
theorem witness_PushAndCallResults :
    tiny.Inv ∧ Fits (tiny.set32 .esp 0x40) ((tiny.set32 .esp 0x40).get32 .esp - 4) 4 ∧
    Fits (tiny.set32 .esp 4) ((tiny.set32 .esp 4).get32 .esp - 4) 4 ∧
    whole.Inv ∧ whole.get32 .esp = 0 ∧ Fits whole (whole.get32 .esp - 4) 4 := by
  refine ⟨tiny_inv, ?_, ?_, whole_inv, rfl, ?_⟩
  all_goals
    unfold Fits
    decide

/-- The last word of memory. -/
theorem witness_PopRetLeaveResults :
    Fits (tiny.set32 .esp 0x3C) ((tiny.set32 .esp 0x3C).get32 .esp) 4 ∧
    Fits (tiny.set32 .ebp 0x3C) ((tiny.set32 .ebp 0x3C).get32 .ebp) 4 := by
  unfold Fits
  decide

/-- A read, a one-byte read and a push, each one byte too far. -/
theorem witness_AccessOutsideMemoryStops :
    (dataAccess (tiny.set32 .ebx 0x3D) (.incRm32 (.mem .ebx .none)) = some (0x3D, 4) ∧ ¬ Fits tiny 0x3D 4) ∧
    (dataAccess (tiny.set32 .ebx 0x40) (.movR8Rm8 .al (.mem .ebx .none)) = some (0x40, 1) ∧ ¬ Fits tiny 0x40 1) ∧
    (dataAccess (tiny.set32 .esp 0x41) (.pushImm8 0) = some (0x3D, 4)) := by
  unfold Fits
  decide

theorem witness_VideoInterruptResult : ((tiny.set32 .eax 0x0E71).get32 .eax).extractLsb' 8 8 = (0x0E : Byte) := by decide

/-- Another vector, and vector 0x10 with another AH. -/
theorem witness_OtherInterruptsStop :
    (0x11 : Byte) ≠ 0x10 ∧ ((tiny.set32 .eax 0x0F00).get32 .eax).extractLsb' 8 8 ≠ (0x0E : Byte) := by decide

/-- The neighbouring port, and port 0x3F8 with the last byte of the input still to come. -/
theorem witness_PortInputResult :
    ((tiny.set32 .edx 0x3F9).get32 .edx).extractLsb' 0 16 ≠ (0x3F8 : Port) ∧
    ((tiny.set32 .edx 0x103F8).get32 .edx).extractLsb' 0 16 = (0x3F8 : Port) ∧
    ({ tiny with portIn := [0x61, 0x71], inPos := 1 } : State).inPos <
      ({ tiny with portIn := [0x61, 0x71], inPos := 1 } : State).portIn.length := by decide

theorem witness_PortInputWaitsForLine :
    ((tiny.set32 .edx 0x3F8).get32 .edx).extractLsb' 0 16 = (0x3F8 : Port) ∧
    ({ tiny with portIn := [0x61], inPos := 1 } : State).inPos =
      ({ tiny with portIn := [0x61], inPos := 1 } : State).portIn.length := by decide

theorem witness_PortOutputResult :
    ((tiny.set32 .edx 0x103F8).get32 .edx).extractLsb' 0 16 = (0x3F8 : Port) ∧
    ((tiny.set32 .edx 0x3F9).get32 .edx).extractLsb' 0 16 ≠ (0x3F8 : Port) := by decide

/-- A form that stores, with the bytes just outside its word, and one that stores nothing. -/
theorem witness_MemoryFrame :
    (∃ t, exec (.pushImm8 9) (tiny.set32 .esp 0x3C) = .next t ∧ t.status = .running) ∧
    storeAddr (tiny.set32 .esp 0x3C) (.pushImm8 9) = some 0x38 ∧ (0x37 < (0x38 : Word).toNat ∧ (0x38 : Word).toNat + 4 ≤ 0x3C) ∧
    (∃ t, exec (.popR32 .eax) tiny = .next t ∧ t.status = .running) ∧ storeAddr tiny (.popR32 .eax) = none :=
  ⟨⟨_, rfl, rfl⟩, by decide, by decide, ⟨_, rfl, rfl⟩, rfl⟩

theorem witness_RegisterFrame :
    (∃ t, exec (.popR32 .eax) tiny = .next t ∧ t.status = .running) ∧ Reg32.ebp ∉ writtenRegs (.popR32 .eax) :=
  ⟨⟨_, rfl, rfl⟩, by decide⟩

/-- A form that writes the flags, one that does not, and `sub` with either value of the parameter. -/
theorem witness_FlagsWrittenOnlyBySubtraction :
    (∃ t, exec (.cmpAlImm8 5) tiny = .next t ∧ t.status = .running) ∧ writesFlags tiny (.cmpAlImm8 5) = true ∧
    (∃ t, exec (.incR32 .eax) tiny = .next t ∧ t.status = .running) ∧ writesFlags tiny (.incR32 .eax) = false ∧
    writesFlags tiny (.subRm32Imm8 (.reg .eax) 0) = true ∧
    writesFlags { tiny with cfg := { tiny.cfg with subWritesFlags := false } } (.subRm32Imm8 (.reg .eax) 0) = false :=
  ⟨⟨_, rfl, rfl⟩, rfl, ⟨_, rfl, rfl⟩, rfl, rfl, rfl⟩

theorem witness_BoundaryFrame :
    (∃ t, exec (.incR32 .eax) tiny = .next t ∧ t.status = .running) ∧ (∀ v, Instr.incR32 .eax ≠ .intImm8 v) ∧
    Instr.incR32 .eax ≠ .outDxAl ∧ Instr.incR32 .eax ≠ .inAlDx :=
  ⟨⟨_, rfl, rfl⟩, by simp, by simp, by simp⟩

theorem witness_HandlerStopsAreThoseOfTheTable :
    tiny.status = .running ∧ ∃ t, exec (.intImm8 0x11) tiny = .next t ∧
      t.status = .stopped (.unimplementedInterruptVector 0x11 none) :=
  ⟨rfl, _, rfl, rfl⟩

/-- A register operand, and memory without a displacement, with one byte and with four. -/
theorem witness_ModRMByteNamesItsOperand :
    (¬ Unsupported 0xC4 ∧ ([] : List Byte).length = dispBytes 0xC4 ∧ (0xC4 : Byte).extractLsb' 6 2 = 3) ∧
    (¬ Unsupported 0x07 ∧ ([] : List Byte).length = dispBytes 0x07 ∧ (0x07 : Byte).extractLsb' 6 2 = 0) ∧
    (¬ Unsupported 0x45 ∧ ([0xFC] : List Byte).length = dispBytes 0x45 ∧ (0x45 : Byte).extractLsb' 6 2 ≠ 3) ∧
    (¬ Unsupported 0x85 ∧ ([0, 1, 0, 0] : List Byte).length = dispBytes 0x85 ∧ (0x85 : Byte).extractLsb' 6 2 ≠ 3) := by
  unfold Unsupported
  decide

end Sys2Proof.Tests
end

section
/-! PROOF. The statements of 10_state.md: registers, flags, trace and input, and what a step leaves unchanged. -/

namespace Sys2Proof.Proofs.StateRules

open Sys2Proof.Machine Sys2Proof.Claims

/-! ### The register file and its 8-bit views (R10 to R13) -/

/-- Settles O19, by the laws of the register file. -/
theorem registersReadBack : Obligations.RegistersReadBack :=
  ⟨rfl, fun s r _ v => ⟨get32_set32_same s r v, get32_set32_ne s v, rfl⟩⟩

/-- The lowest bit of a view in its slot (R12). -/
def viewLow (high : Bool) : Nat :=
  if high then 8 else 0

theorem viewGet_eq_extractLsb' (high : Bool) (w : Word) : viewGet high w = w.extractLsb' (viewLow high) 8 := by
  cases high <;> rfl

/-- The bits of a slot after a write of a view (R13): those of the byte inside the view, the old ones outside. -/
theorem getLsbD_viewSet (high : Bool) (w : Word) (v : Byte) {k : Nat} (hk : k < 32) :
    (viewSet high w v).getLsbD k =
      if viewLow high ≤ k ∧ k < viewLow high + 8 then v.getLsbD (k - viewLow high) else w.getLsbD k := by
  cases high with
  | false =>
    simp only [viewSet, viewLow, Bool.false_eq_true, if_false, BitVec.getLsbD_append, BitVec.getLsbD_extractLsb']
    by_cases hv : k < 8
    · simp [hv]
    · simp [hv, show k - 8 < 24 by omega, show 8 + (k - 8) = k by omega]
  | true =>
    simp only [viewSet, viewLow, if_true, BitVec.getLsbD_append, BitVec.getLsbD_extractLsb']
    by_cases hlow : k < 8
    · simp [hlow, show ¬ 8 ≤ k by omega]
    · by_cases hv : k < 16
      · simp [hlow, hv, show 8 ≤ k by omega, show k - 8 < 8 by omega]
      · simp [hlow, hv, show ¬ k - 8 < 8 by omega, show k - 8 - 8 < 16 by omega, show 16 + (k - 8 - 8) = k by omega]

/-- The slot that a write of a view changes. -/
theorem get32_set8_owner (s : State) (r : Reg8) (v : Byte) :
    (s.set8 r v).get32 (owner r) = viewSet (isHigh r) (s.get32 (owner r)) v :=
  get32_set32_same _ _ _

theorem owner_ofCode (i : Fin 8) :
    owner (Reg8.ofCode (BitVec.ofNat 3 i.val)) = Reg32.ofCode (BitVec.ofNat 3 (i.val % 4)) := by
  revert i; decide

theorem viewLow_ofCode (i : Fin 8) :
    viewLow (isHigh (Reg8.ofCode (BitVec.ofNat 3 i.val))) = if i.val < 4 then 0 else 8 := by
  revert i; decide

/-- Settles O20: view i lies in slot i mod 4 at the bit that its high or low half gives. -/
theorem byteViewWriteKeepsOtherBytes : Obligations.ByteViewWriteKeepsOtherBytes := by
  intro s i v r slot low
  have howner : slot = owner r := (owner_ofCode i).symm
  have hlow : low = viewLow (isHigh r) := (viewLow_ofCode i).symm
  rw [howner, hlow]
  refine ⟨viewGet_eq_extractLsb' _ _, fun k hk => ?_, fun q hq => get32_set8_ne s r v hq, rfl⟩
  rw [get32_set8_owner, getLsbD_viewSet _ _ _ hk]

/-! ### What the shared operations answer, and their frames -/

/-- A computation that succeeds in two parts. -/
theorem bind_eq_ok {α β : Type} {x : Except StopError α} {f : α → Except StopError β} {b : β} (h : x >>= f = .ok b) :
    ∃ a, x = .ok a ∧ f a = .ok b := by
  cases x with
  | ok a => exact ⟨a, rfl, h⟩
  | error e => cases h

/-- `t` is `s` but for the registers in `W`, `eip` and memory: what data movement may change. -/
structure MovesOnly (W : List Reg32) (s t : State) : Prop where
  get32 : ∀ r, r ∉ W → t.get32 r = s.get32 r
  rest : t = { s with regs := t.regs, eip := t.eip, mem := t.mem }

theorem MovesOnly.refl (W : List Reg32) (s : State) : MovesOnly W s s :=
  ⟨fun _ _ => rfl, rfl⟩

theorem MovesOnly.mono {V W : List Reg32} {s t : State} (h : MovesOnly V s t) (hVW : V ⊆ W) : MovesOnly W s t :=
  ⟨fun r hr => h.get32 r fun hV => hr (hVW hV), h.rest⟩

theorem MovesOnly.trans {V W : List Reg32} {s t u : State} (h : MovesOnly V s t) (h' : MovesOnly W t u) :
    MovesOnly (V ++ W) s u where
  get32 r hr := by
    rw [List.mem_append, not_or] at hr
    rw [h'.get32 r hr.2, h.get32 r hr.1]
  rest := by
    have h2 := h'.rest
    rw [h.rest] at h2
    exact h2

section Fields
variable {W : List Reg32} {s t : State} (h : MovesOnly W s t)
include h

theorem MovesOnly.flags : t.flags = s.flags := by rw [h.rest]
theorem MovesOnly.outTrace : t.outTrace = s.outTrace := by rw [h.rest]
theorem MovesOnly.portIn : t.portIn = s.portIn := by rw [h.rest]
theorem MovesOnly.inPos : t.inPos = s.inPos := by rw [h.rest]
theorem MovesOnly.cfg : t.cfg = s.cfg := by rw [h.rest]
theorem MovesOnly.draw : t.draw = s.draw := by rw [h.rest]

end Fields

theorem subFlags_of_writes {s : State} (h : s.cfg.subWritesFlags = true) (a imm : Word) :
    s.subFlags a imm = s.setFlags (flagSub a imm) :=
  if_pos h

theorem subFlags_of_not_writes {s : State} (h : s.cfg.subWritesFlags = false) (a imm : Word) :
    s.subFlags a imm = s :=
  if_neg (Bool.eq_false_iff.mp h)

/-- The one function of the video service (R151). -/
theorem videoService_of_teletype {s : State} (h : s.get8 .ah = 0x0E) :
    s.videoService =
      .ok (s.emit (Config.videoFormat (s.get8 .al) ((s.get8 .bl).extractLsb' 0 3) ((s.get8 .bl).getLsbD 3))) :=
  if_pos h

theorem videoService_of_other {s : State} (h : s.get8 .ah ≠ 0x0E) :
    s.videoService = .error (.unimplementedInterruptVector 0x10 (some (s.get8 .ah))) :=
  if_neg h

theorem set32_moves (s : State) (r : Reg32) (v : Word) : MovesOnly [r] s (s.set32 r v) :=
  ⟨fun _ hq => get32_set32_ne s v (List.ne_of_not_mem_cons hq), rfl⟩

theorem set8_moves (s : State) (r : Reg8) (v : Byte) : MovesOnly [owner r] s (s.set8 r v) :=
  set32_moves _ _ _

theorem setEip_moves (s : State) (a : Word) : MovesOnly [] s (s.setEip a) :=
  ⟨fun _ _ => rfl, rfl⟩

theorem withBytes_moves (s : State) (a : Nat) (bs : List Byte) : MovesOnly [] s (s.withBytes a bs) :=
  ⟨fun _ _ => rfl, rfl⟩

theorem branch_moves (s : State) (taken : Bool) (rel : Byte) : MovesOnly [] s (s.branch taken rel) := by
  cases taken with
  | false => exact .refl _ _
  | true => exact setEip_moves _ _

theorem setRM32_moves {s t : State} {m : RM Reg32} {v : Word} (h : s.setRM32 m v = .ok t) :
    MovesOnly (operandReg m) s t := by
  rcases setRM32_cases s m v with ⟨r, rfl, hr⟩ | ⟨base, d, rfl, -, hr⟩ | ⟨base, d, rfl, -, hr⟩ <;>
    rw [hr] at h <;> cases h
  · exact set32_moves _ _ _
  · exact withBytes_moves _ _ _

theorem modifyRM32_moves {s t : State} {m : RM Reg32} {f : Word → Word} (h : s.modifyRM32 m f = .ok t) :
    MovesOnly (operandReg m) s t := by
  obtain ⟨a, -, ha⟩ := bind_eq_ok h
  exact setRM32_moves ha

theorem push32_moves {s t : State} {v : Word} (h : s.push32 v = .ok t) : MovesOnly [.esp] s t := by
  rcases push32_cases s v with ⟨-, hr⟩ | ⟨-, hr⟩ <;> rw [hr] at h <;> cases h
  exact (set32_moves s .esp _).trans (withBytes_moves _ _ _)

theorem pop32_moves {s t : State} {v : Word} (h : s.pop32 = .ok (v, t)) : MovesOnly [.esp] s t := by
  rcases pop32_cases s with ⟨-, hr⟩ | ⟨-, hr⟩ <;> rw [hr] at h <;> cases h
  exact set32_moves s .esp _

/-! ### What an instruction can do -/

/-- The flags of a subtraction at width 8 or 32 (R17, R83). -/
def IsSubtraction (f : Flags) : Prop :=
  (∃ a b : Byte, f = flagSub a b) ∨ ∃ a b : Word, f = flagSub a b

/-- The four ways in which an instruction that began in `s` completes in `t`. -/
inductive Completes (i : Instr) (s t : State) : Prop where
  /-- Data movement: registers, memory and `eip` alone. -/
  | moves (hw : writesFlags s i = false) (hm : MovesOnly (writtenRegs i) s t)
  /-- Data movement, and then the flags of a subtraction (R17). -/
  | subtracts (hw : writesFlags s i = true) (u : State) (f : Flags) (hm : MovesOnly (writtenRegs i) s u)
      (hf : IsSubtraction f) (ht : t = u.setFlags f)
  /-- Bytes go out of the core (R22). -/
  | emits (hi : (∃ v, i = .intImm8 v) ∨ i = .outDxAl) (bs : List Byte) (ht : t = s.emit bs)
  /-- A port is read into AL (R155). -/
  | reads (hi : i = .inAlDx) (n : Nat) (hm : MovesOnly [.eax] { s with inPos := n } t)

/-- What a handler ends in: the stop, or what its successes have in common (R82). -/
theorem finish_completes {i : Instr} {s t : State} {r : Except StopError State} (h : s.finish r = .next t)
    (hr : ∀ u, r = .ok u → Completes i s u) : (∃ e, t = s.stopInHandler e) ∨ Completes i s t := by
  rcases finish_cases h with hok | ⟨e, -, rfl⟩
  · exact .inr (hr t hok)
  · exact .inl ⟨e, rfl⟩

theorem finish_bind_completes {α : Type} {i : Instr} {s t : State} {x : Except StopError α}
    {f : α → Except StopError State} (h : s.finish (x >>= f) = .next t)
    (hr : ∀ a u, x = .ok a → f a = .ok u → Completes i s u) : (∃ e, t = s.stopInHandler e) ∨ Completes i s t :=
  finish_completes h fun u hu =>
    let ⟨a, ha, hu⟩ := bind_eq_ok hu
    hr a u ha hu

theorem next_completes {i : Instr} {s t u : State} (h : (.next u : Result) = .next t) (hu : Completes i s u) :
    (∃ e, t = s.stopInHandler e) ∨ Completes i s t := by
  obtain rfl := Host.Outcome.next.inj h
  exact .inr hu

theorem flagsCmpAl_isSubtraction (w : CmpAlWidth) (al imm : Byte) : IsSubtraction (flagsCmpAl w al imm) := by
  cases w with
  | w8 => exact .inl ⟨_, _, rfl⟩
  | w32 => exact .inr ⟨_, _, rfl⟩

/-- A success of `sub rm32, imm8`: the store, and then the flags if `SUB_WRITES_FLAGS` (R112). -/
theorem sub_completes {s t : State} {m : RM Reg32} {imm : Byte} {a : Word}
    (h : s.setRM32 m (a - sext8 imm) = .ok t) : Completes (.subRm32Imm8 m imm) s (t.subFlags a (sext8 imm)) := by
  have hm : MovesOnly (operandReg m) s t := setRM32_moves h
  cases hw : s.cfg.subWritesFlags with
  | true =>
    rw [subFlags_of_writes (hm.cfg ▸ hw)]
    exact .subtracts hw t _ hm (.inr ⟨_, _, rfl⟩) rfl
  | false =>
    rw [subFlags_of_not_writes (hm.cfg ▸ hw)]
    exact .moves hw hm

theorem execIntImm8_cases {s t : State} {vec : Byte} (h : execIntImm8 vec s = .next t) :
    (∃ e, t = s.stopInHandler e) ∨ Completes (.intImm8 vec) s t := by
  refine finish_completes h fun u hu => ?_
  split at hu
  · by_cases hah : s.get8 .ah = 0x0E
    · rw [videoService_of_teletype hah] at hu
      cases hu
      exact .emits (.inl ⟨_, rfl⟩) _ rfl
    · rw [videoService_of_other hah] at hu
      cases hu
  · cases hu

theorem execOutDxAl_cases {s t : State} (h : execOutDxAl s = .next t) :
    (∃ e, t = s.stopInHandler e) ∨ Completes .outDxAl s t := by
  refine finish_completes h fun u hu => ?_
  unfold State.portWrite at hu
  split at hu <;> cases hu
  exact .emits (.inr rfl) _ rfl

/-- A port read changes nothing but the position in the input (R157). -/
theorem portRead_eq_some {s t : State} {port : Port} {b : Byte} (h : s.portRead port = some (b, t)) :
    ∃ n, t = { s with inPos := n } := by
  unfold State.portRead at h
  split at h
  · split at h <;> cases h
    exact ⟨_, rfl⟩
  · cases h
    exact ⟨_, rfl⟩

theorem execInAlDx_cases {s t : State} (h : execInAlDx s = .next t) : Completes .inAlDx s t := by
  unfold execInAlDx at h
  split at h <;> cases h
  next b u hread =>
    obtain ⟨n, rfl⟩ := portRead_eq_some hread
    exact .reads rfl n (set8_moves _ .al _)

/-- Everything an instruction with a next state can do (R82): stop inside its handler, or complete. -/
theorem exec_cases {i : Instr} {s t : State} (h : exec i s = .next t) :
    (∃ e, t = s.stopInHandler e) ∨ Completes i s t := by
  cases i with
  | jmpRel32 rel => exact next_completes h (.moves rfl (setEip_moves _ _))
  | jsRel8 rel => exact next_completes h (.moves rfl (branch_moves _ _ _))
  | jzRel8 rel => exact next_completes h (.moves rfl (branch_moves _ _ _))
  | jleRel8 rel => exact next_completes h (.moves rfl (branch_moves _ _ _))
  | cmpAlImm8 imm =>
    exact next_completes h (.subtracts rfl s _ (.refl _ _) (flagsCmpAl_isSubtraction _ _ _) rfl)
  | cmpR32Rm32 r m =>
    refine finish_bind_completes h ?_
    rintro b u - ⟨⟩
    exact .subtracts rfl s _ (.refl _ _) (.inr ⟨_, _, rfl⟩) rfl
  | cmpRm32Imm8 m imm =>
    refine finish_bind_completes h ?_
    rintro a u - ⟨⟩
    exact .subtracts rfl s _ (.refl _ _) (.inr ⟨_, _, rfl⟩) rfl
  | addRm32R32 m r => exact finish_completes h fun u hu => .moves rfl (modifyRM32_moves hu)
  | addRm32Imm8 m imm => exact finish_completes h fun u hu => .moves rfl (modifyRM32_moves hu)
  | subRm32Imm8 m imm =>
    refine finish_bind_completes h fun a u _ hu => ?_
    split at hu
    · cases hu
    · obtain ⟨p, hp, ⟨⟩⟩ := bind_eq_ok hu
      exact sub_completes hp
  | movRm32R32 m r => exact finish_completes h fun u hu => .moves rfl (setRM32_moves hu)
  | movR32Rm32 r m =>
    refine finish_bind_completes h ?_
    rintro v u - ⟨⟩
    exact .moves rfl (set32_moves _ _ _)
  | movR8Rm8 r m =>
    refine finish_bind_completes h ?_
    rintro v u - ⟨⟩
    exact .moves rfl (set8_moves _ _ _)
  | movRm32Imm32 g m imm => exact finish_completes h fun u hu => .moves rfl (setRM32_moves hu)
  | movR8Imm8 r imm => exact next_completes h (.moves rfl (set8_moves _ _ _))
  | movR32Imm32 r imm => exact next_completes h (.moves rfl (set32_moves _ _ _))
  | incRm32 m => exact finish_completes h fun u hu => .moves rfl (modifyRM32_moves hu)
  | incR32 r => exact next_completes h (.moves rfl (set32_moves _ _ _))
  | pushR32 r => exact finish_completes h fun u hu => .moves rfl (push32_moves hu)
  | popR32 r =>
    refine finish_bind_completes h ?_
    rintro ⟨v, p⟩ u hp ⟨⟩
    exact .moves rfl ((pop32_moves hp).trans (set32_moves _ _ _))
  | pushImm8 imm => exact finish_completes h fun u hu => .moves rfl (push32_moves hu)
  | callRel32 rel =>
    refine finish_bind_completes h ?_
    rintro p u hp ⟨⟩
    exact .moves rfl ((push32_moves hp).trans (setEip_moves _ _))
  | ret =>
    refine finish_bind_completes h ?_
    rintro ⟨v, p⟩ u hp ⟨⟩
    exact .moves rfl ((pop32_moves hp).trans (setEip_moves _ _))
  | leave =>
    refine finish_bind_completes h ?_
    rintro ⟨v, p⟩ u hp ⟨⟩
    have hm := (set32_moves s .esp _).trans ((pop32_moves hp).trans (set32_moves p .ebp v))
    exact .moves rfl (hm.mono (by simp [writtenRegs]))
  | negRm32 m => exact finish_completes h fun u hu => .moves rfl (modifyRM32_moves hu)
  | intImm8 vec => exact execIntImm8_cases h
  | inAlDx => exact .inr (execInAlDx_cases h)
  | outDxAl => exact execOutDxAl_cases h

/-- An instruction that leaves the core running has completed. -/
theorem exec_completes {i : Instr} {s t : State} (h : exec i s = .next t) (ht : t.status = .running) :
    Completes i s t := by
  rcases exec_cases h with ⟨e, rfl⟩ | hc
  · cases ht
  · exact hc

/-! ### The frames of the instructions -/

/-- Settles O47, by the four ways to complete. -/
theorem registerFrame : Obligations.RegisterFrame := by
  intro i s t h hrun r hr
  cases exec_completes h hrun with
  | moves _ hm => exact hm.get32 r hr
  | subtracts _ u f hm _ ht =>
    subst ht
    exact hm.get32 r hr
  | emits _ bs ht =>
    subst ht
    rfl
  | reads hi n hm =>
    subst hi
    exact hm.get32 r hr

/-- Settles O48, by the four ways to complete: only `subtracts` sets the flags. -/
theorem flagsWrittenOnlyBySubtraction : Obligations.FlagsWrittenOnlyBySubtraction := by
  intro i s t h hrun
  cases exec_completes h hrun with
  | moves hw hm => exact ⟨fun _ => hm.flags, fun hw' => absurd (hw.symm.trans hw') Bool.false_ne_true⟩
  | subtracts hw u f _ hf ht =>
    subst ht
    exact ⟨fun hw' => absurd (hw'.symm.trans hw) Bool.false_ne_true, fun _ => hf⟩
  | emits hi bs ht =>
    subst ht
    have hw : writesFlags s i = false := by rcases hi with ⟨v, rfl⟩ | rfl <;> rfl
    exact ⟨fun _ => rfl, fun hw' => absurd (hw.symm.trans hw') Bool.false_ne_true⟩
  | reads hi n hm =>
    subst hi
    exact ⟨fun _ => hm.flags, fun hw => absurd hw Bool.false_ne_true⟩

/-- Settles O49, by the four ways to complete: only `emits` adds to the trace, only `reads` moves in the input. -/
theorem boundaryFrame : Obligations.BoundaryFrame := by
  intro i s t h hrun
  cases exec_completes h hrun with
  | moves _ hm => exact ⟨fun _ _ => hm.outTrace, fun _ => hm.inPos, hm.portIn, hm.cfg, hm.draw⟩
  | subtracts _ u f hm _ ht =>
    subst ht
    exact ⟨fun _ _ => hm.outTrace, fun _ => hm.inPos, hm.portIn, hm.cfg, hm.draw⟩
  | emits hi bs ht =>
    subst ht
    refine ⟨fun hint hout => ?_, fun _ => rfl, rfl, rfl, rfl⟩
    rcases hi with ⟨v, hv⟩ | ho
    · exact absurd hv (hint v)
    · exact absurd ho hout
  | reads hi n hm =>
    exact ⟨fun _ _ => hm.outTrace, fun hne => absurd hi hne, hm.portIn, hm.cfg, hm.draw⟩

/-! ### The output trace over a step (R22, R172) -/

/-- `t` has the parameters and the supplied input of `s`, and its trace with bytes of port 0x3F8 appended. -/
def Appends (s t : State) : Prop :=
  (∃ bs : List Byte, t.outTrace = s.outTrace ++ bs.map (fun b => ((0x3F8 : Port), b))) ∧
  t.cfg = s.cfg ∧ t.portIn = s.portIn

theorem appends_of_eq {s t : State} (ho : t.outTrace = s.outTrace) (hc : t.cfg = s.cfg) (hp : t.portIn = s.portIn) :
    Appends s t :=
  ⟨⟨[], by rw [ho]; simp⟩, hc, hp⟩

theorem stopInHandler_appends (s : State) (e : StopError) : Appends s (s.stopInHandler e) :=
  appends_of_eq rfl rfl rfl

theorem reject_appends (s : State) (e : DecodeError) : Appends s (s.reject e) := by
  unfold State.reject
  split
  · exact appends_of_eq rfl rfl rfl
  · exact stopInHandler_appends _ _

theorem MovesOnly.appends {W : List Reg32} {s t : State} (h : MovesOnly W s t) : Appends s t :=
  appends_of_eq h.outTrace h.cfg h.portIn

theorem exec_appends {i : Instr} {s t : State} (h : exec i s = .next t) : Appends s t := by
  rcases exec_cases h with ⟨e, rfl⟩ | hc
  · exact stopInHandler_appends s e
  · cases hc with
    | moves _ hm => exact hm.appends
    | subtracts _ u f hm _ ht =>
      subst ht
      exact hm.appends
    | emits _ bs ht =>
      subst ht
      exact ⟨⟨bs, rfl⟩, rfl, rfl⟩
    | reads _ n hm => exact hm.appends

/-- Everything a step with a next state can be (R80, R81): the stop of a rejected fetch, or an instruction run with `eip`
past it. -/
theorem step_cases {s t : State} (h : step s = .next t) :
    (∃ e, t = s.reject e) ∨ ∃ i n, exec i (s.advance n) = .next t := by
  unfold step at h
  split at h
  · cases h
  · split at h
    · cases h
      exact .inl ⟨_, rfl⟩
    · exact .inr ⟨_, _, h⟩

/-- Settles O16: a rejected fetch appends nothing, and the advance past an instruction keeps the trace. -/
theorem stepOnlyAppendsToTrace : Obligations.StepOnlyAppendsToTrace := by
  intro s t h
  rcases step_cases h with ⟨e, rfl⟩ | ⟨i, n, hexec⟩
  · exact reject_appends s e
  · have happ : Appends (s.advance n) t := exec_appends hexec
    exact happ

/-! ### The carry flag (R17, R85)

Each operation reads the same from a state with another carry flag, and answers the same state but for that flag. -/

section Carry
variable (s : State) (c : Bool)

@[simp] theorem withCarry_get32 (r : Reg32) : (withCarry s c).get32 r = s.get32 r := rfl
@[simp] theorem withCarry_eip : (withCarry s c).eip = s.eip := rfl
@[simp] theorem withCarry_cfg : (withCarry s c).cfg = s.cfg := rfl
@[simp] theorem withCarry_portIn : (withCarry s c).portIn = s.portIn := rfl
@[simp] theorem withCarry_inPos : (withCarry s c).inPos = s.inPos := rfl
@[simp] theorem withCarry_portDX : (withCarry s c).portDX = s.portDX := rfl
@[simp] theorem memRead32_withCarry (a : Word) : (withCarry s c).memRead32 a = s.memRead32 a := rfl

theorem set32_withCarry (r : Reg32) (v : Word) : (withCarry s c).set32 r v = withCarry (s.set32 r v) c := rfl

theorem getRM32_withCarry (m : RM Reg32) : (withCarry s c).getRM32 m = s.getRM32 m := by
  cases m <;> rfl

theorem getRM8_withCarry (m : RM Reg8) : (withCarry s c).getRM8 m = s.getRM8 m := by
  cases m <;> rfl

theorem memWrite32_withCarry (a v : Word) :
    (withCarry s c).memWrite32 a v = (s.memWrite32 a v).map (withCarry · c) := by
  rcases memWrite32_cases s a v with ⟨hfit, hs⟩ | ⟨hfit, hs⟩
  · have hc : (withCarry s c).memWrite32 a v = .ok ((withCarry s c).withBytes a.toNat (wordBytes v)) :=
      memWrite32_of_fits v hfit
    rw [hs, hc]
    rfl
  · have hc : (withCarry s c).memWrite32 a v = .error (.outOfBounds a 4) := memWrite32_of_not_fits v hfit
    rw [hs, hc]
    rfl

theorem setRM32_withCarry (m : RM Reg32) (v : Word) :
    (withCarry s c).setRM32 m v = (s.setRM32 m v).map (withCarry · c) := by
  cases m with
  | reg r => rfl
  | mem base d => exact memWrite32_withCarry s c _ v

theorem modifyRM32_withCarry (m : RM Reg32) (f : Word → Word) :
    (withCarry s c).modifyRM32 m f = (s.modifyRM32 m f).map (withCarry · c) := by
  unfold State.modifyRM32
  rw [getRM32_withCarry]
  cases s.getRM32 m with
  | ok a => exact setRM32_withCarry s c m (f a)
  | error e => rfl

theorem push32_withCarry (v : Word) : (withCarry s c).push32 v = (s.push32 v).map (withCarry · c) :=
  memWrite32_withCarry (s.set32 .esp (s.get32 .esp - 4)) c _ v

theorem pop32_withCarry : (withCarry s c).pop32 = s.pop32.map fun p => (p.1, withCarry p.2 c) := by
  simp only [State.pop32, withCarry_get32, memRead32_withCarry]
  cases s.memRead32 (s.get32 .esp) <;> rfl

theorem branch_withCarry (taken : Bool) (rel : Byte) :
    forgetCarry (.next ((withCarry s c).branch taken rel)) = forgetCarry (.next (s.branch taken rel)) := by
  cases taken <;> rfl

/-- Written flags replace the carry flag, and flags that are not written keep it (R112, D14). -/
theorem subFlags_withCarry (a imm : Word) (d : Bool) :
    withCarry ((withCarry s c).subFlags a imm) d = withCarry (s.subFlags a imm) d := by
  cases hw : s.cfg.subWritesFlags with
  | true =>
    rw [subFlags_of_writes hw, subFlags_of_writes (s := withCarry s c) hw]
    rfl
  | false =>
    rw [subFlags_of_not_writes hw, subFlags_of_not_writes (s := withCarry s c) hw]
    rfl

theorem videoService_withCarry : (withCarry s c).videoService = s.videoService.map (withCarry · c) := by
  by_cases hah : s.get8 .ah = 0x0E
  · rw [videoService_of_teletype hah, videoService_of_teletype (s := withCarry s c) hah]
    rfl
  · rw [videoService_of_other hah, videoService_of_other (s := withCarry s c) hah]
    rfl

theorem portWrite_withCarry (port : Port) (b : Byte) :
    (withCarry s c).portWrite port b = (s.portWrite port b).map (withCarry · c) := by
  unfold State.portWrite
  split <;> rfl

theorem portRead_withCarry (port : Port) :
    (withCarry s c).portRead port = (s.portRead port).map fun p => (p.1, withCarry p.2 c) := by
  simp only [State.portRead, withCarry_portIn, withCarry_inPos]
  split
  · cases s.portIn[s.inPos]? <;> rfl
  · rfl

theorem forgetCarry_finish_map (r : Except StopError State) :
    forgetCarry (s.finish (r.map (withCarry · false))) = forgetCarry (s.finish r) := by
  cases r <;> rfl

/-- The end of a handler: its result matters but for the carry flag, and the stop reads no flag (R82). -/
theorem finish_withCarry {r' r : Except StopError State}
    (h : r'.map (withCarry · false) = r.map (withCarry · false)) :
    forgetCarry ((withCarry s c).finish r') = forgetCarry (s.finish r) :=
  calc forgetCarry ((withCarry s c).finish r')
    _ = forgetCarry (s.finish r') := by cases r' <;> rfl
    _ = forgetCarry (s.finish (r'.map (withCarry · false))) := (forgetCarry_finish_map s r').symm
    _ = forgetCarry (s.finish (r.map (withCarry · false))) := by rw [h]
    _ = forgetCarry (s.finish r) := forgetCarry_finish_map s r

/-- The end of a handler that is one operation, which keeps the carry flag. -/
theorem finish_withCarry_of_map {r' r : Except StopError State} (h : r' = r.map (withCarry · c)) :
    forgetCarry ((withCarry s c).finish r') = forgetCarry (s.finish r) := by
  refine finish_withCarry s c ?_
  subst h
  cases r <;> rfl

/-- The end of a handler that goes on, with the value it read, to a result that is the same but for the carry flag. -/
theorem finish_bind_withCarry {α : Type} (x : Except StopError α) {f' f : α → Except StopError State}
    (h : ∀ a, (f' a).map (withCarry · false) = (f a).map (withCarry · false)) :
    forgetCarry ((withCarry s c).finish (x >>= f')) = forgetCarry (s.finish (x >>= f)) := by
  cases x with
  | ok a => exact finish_withCarry s c (h a)
  | error e => rfl

theorem execSubRm32Imm8_withCarry (m : RM Reg32) (imm : Byte) :
    forgetCarry (execSubRm32Imm8 m imm (withCarry s c)) = forgetCarry (execSubRm32Imm8 m imm s) := by
  simp only [execSubRm32Imm8, getRM32_withCarry, setRM32_withCarry, withCarry_cfg]
  refine finish_bind_withCarry s c _ fun a => ?_
  split
  · rfl
  · cases s.setRM32 m (a - sext8 imm) with
    | ok t => exact congrArg Except.ok (subFlags_withCarry t c a (sext8 imm) false)
    | error e => rfl

theorem execIntImm8_withCarry (vec : Byte) :
    forgetCarry (execIntImm8 vec (withCarry s c)) = forgetCarry (execIntImm8 vec s) := by
  unfold execIntImm8
  split
  · exact finish_withCarry_of_map s c (videoService_withCarry s c)
  · rfl

theorem execInAlDx_withCarry : forgetCarry (execInAlDx (withCarry s c)) = forgetCarry (execInAlDx s) := by
  simp only [execInAlDx, withCarry_portDX, portRead_withCarry]
  cases s.portRead s.portDX <;> rfl

end Carry

/-- Settles O51, instruction by instruction. -/
theorem carryFlagIsNeverRead : Obligations.CarryFlagIsNeverRead := by
  intro i s c
  cases i with
  | jmpRel32 rel => rfl
  | jsRel8 rel => exact branch_withCarry s c _ rel
  | jzRel8 rel => exact branch_withCarry s c _ rel
  | jleRel8 rel => exact branch_withCarry s c _ rel
  | cmpAlImm8 imm => rfl
  | cmpR32Rm32 r m =>
    simp only [exec, execCmpR32Rm32, getRM32_withCarry]
    exact finish_bind_withCarry s c _ fun _ => rfl
  | cmpRm32Imm8 m imm =>
    simp only [exec, execCmpRm32Imm8, getRM32_withCarry]
    exact finish_bind_withCarry s c _ fun _ => rfl
  | addRm32R32 m r => exact finish_withCarry_of_map s c (modifyRM32_withCarry s c m _)
  | addRm32Imm8 m imm => exact finish_withCarry_of_map s c (modifyRM32_withCarry s c m _)
  | subRm32Imm8 m imm => exact execSubRm32Imm8_withCarry s c m imm
  | movRm32R32 m r => exact finish_withCarry_of_map s c (setRM32_withCarry s c m _)
  | movR32Rm32 r m =>
    simp only [exec, execMovR32Rm32, getRM32_withCarry]
    exact finish_bind_withCarry s c _ fun _ => rfl
  | movR8Rm8 r m =>
    simp only [exec, execMovR8Rm8, getRM8_withCarry]
    exact finish_bind_withCarry s c _ fun _ => rfl
  | movRm32Imm32 g m imm => exact finish_withCarry_of_map s c (setRM32_withCarry s c m imm)
  | movR8Imm8 r imm => rfl
  | movR32Imm32 r imm => rfl
  | incRm32 m => exact finish_withCarry_of_map s c (modifyRM32_withCarry s c m _)
  | incR32 r => rfl
  | pushR32 r => exact finish_withCarry_of_map s c (push32_withCarry s c _)
  | popR32 r =>
    simp only [exec, execPopR32, pop32_withCarry]
    cases s.pop32 <;> rfl
  | pushImm8 imm => exact finish_withCarry_of_map s c (push32_withCarry s c _)
  | callRel32 rel =>
    simp only [exec, execCallRel32, push32_withCarry, withCarry_eip]
    cases s.push32 s.eip <;> rfl
  | ret =>
    simp only [exec, execRet, pop32_withCarry]
    cases s.pop32 <;> rfl
  | leave =>
    simp only [exec, execLeave, withCarry_get32, set32_withCarry, pop32_withCarry]
    cases (s.set32 .esp (s.get32 .ebp)).pop32 <;> rfl
  | negRm32 m => exact finish_withCarry_of_map s c (modifyRM32_withCarry s c m _)
  | intImm8 vec => exact execIntImm8_withCarry s c vec
  | inAlDx => exact execInAlDx_withCarry s c
  | outDxAl => exact finish_withCarry_of_map s c (portWrite_withCarry s c _ _)

end Sys2Proof.Proofs.StateRules
end

section
/-! PROOF. The statements of 20_memory.md: the memory array, the fetch and its stops, the accesses of the instructions.
The facts about the decoder that they need come first. -/

namespace Sys2Proof.Proofs.DecoderRules

/-! ### The decoder reads back an encoding (R51, R65, R66) -/

/-- The decoder once its opcode byte is read. -/
theorem decodeFrom_cons {op : Byte} {h : Handler} (hop : dispatch op = some h) (rest wrapped : List Byte) :
    decodeFrom (op :: rest) wrapped = (decodeBody h (Cursor.next 1 rest wrapped)).map fun p => (p.1, p.2.pos) := by
  simp only [decodeFrom, fetch8_cons_next, hop, bind, Except.bind]
  cases decodeBody h (Cursor.next 1 rest wrapped) <;> rfl

section Body
variable (p : Nat) (bs : List Byte)

theorem withByte_cons (b : Byte) (k : Byte → Instr) :
    withByte ⟨p, b :: bs, []⟩ k = .ok (k b, ⟨p + 1, bs, []⟩) := by
  simp only [withByte, fetch8_cons]
  rfl

theorem withWord_wordBytes (w : Word) (k : Word → Instr) :
    withWord ⟨p, wordBytes w ++ bs, []⟩ k = .ok (k w, ⟨p + 4, bs, []⟩) := by
  simp only [withWord, fetch32_wordBytes]
  rfl

theorem withModRM_encodeRM {R : Type} (code : R → BitVec 3) (g : BitVec 3) {m : RM R}
    (k : ModRM → Cursor → Except DecodeError (Instr × Cursor)) (hm : m.wf = true) :
    withModRM ⟨p, encodeRM code g m ++ bs, []⟩ k = k ⟨g, m.map code⟩ ⟨p + 1 + m.dispLength, bs, []⟩ := by
  simp only [withModRM, resolve_encodeRM code g m p bs hm]
  rfl

end Body

theorem rm32_map_code (g : BitVec 3) (m : RM Reg32) : ModRM.rm32 ⟨g, m.map Reg32.code⟩ = m := by
  cases m with
  | reg r => exact congrArg RM.reg (Reg32.ofCode_code r)
  | mem base d => rfl

theorem rm8_map_code (g : BitVec 3) (m : RM Reg8) : ModRM.rm8 ⟨g, m.map Reg8.code⟩ = m := by
  cases m with
  | reg r => exact congrArg RM.reg (Reg8.ofCode_code r)
  | mem base d => rfl

/-- The bytes of an instruction decode as its handler decodes those after the opcode byte. -/
theorem decode_of_body (h : Handler) {op : Byte} {body rest : List Byte} {i : Instr} {n : Nat}
    (hop : dispatch op = some h) (hb : decodeBody h ⟨1, body, []⟩ = .ok (i, ⟨n, rest, []⟩)) :
    decode (op :: body) = .ok (i, n) := by
  rw [decode, decodeFrom_cons hop, Cursor.next_nil, hb]
  rfl

/-- The bytes of a form that ends in its `rm` operand. -/
theorem decode_modRM {R : Type} {code : R → BitVec 3} {g : BitVec 3} {m : RM R} {op : Byte} {i : Instr}
    (h : Handler) (k : ModRM → Cursor → Except DecodeError (Instr × Cursor)) (rest : List Byte) (hm : m.wf = true)
    (hop : dispatch op = some h) (hbody : ∀ c, decodeBody h c = withModRM c k)
    (hk : ∀ c, k ⟨g, m.map code⟩ c = .ok (i, c)) :
    decode (op :: encodeRM code g m ++ rest) = .ok (i, 2 + m.dispLength) :=
  decode_of_body h hop ((hbody _).trans ((withModRM_encodeRM 1 rest code g k hm).trans (hk _)))

/-- A slot of group 0x83 that takes an immediate reads back its operand and the immediate. -/
theorem decode_group83 {g : BitVec 3} {m : RM Reg32} (k : RM Reg32 → Byte → Instr) (imm : Byte) (rest : List Byte)
    (hg : ∀ x c, decodeGroup83 ⟨g, x⟩ c = withByte c (k (ModRM.rm32 ⟨g, x⟩))) (hm : m.wf = true) :
    decode (0x83 :: (encodeRM Reg32.code g m ++ [imm]) ++ rest) = .ok (k m imm, 3 + m.dispLength) := by
  have hbody : decodeBody .group83 ⟨1, encodeRM Reg32.code g m ++ [imm] ++ rest, []⟩ =
      .ok (k m imm, ⟨1 + 1 + m.dispLength + 1, rest, []⟩) := by
    rw [List.append_assoc, decodeBody, withModRM_encodeRM 1 _ Reg32.code g _ hm, hg, rm32_map_code]
    exact withByte_cons _ rest imm _
  rw [show 3 + m.dispLength = 1 + 1 + m.dispLength + 1 by omega]
  exact decode_of_body .group83 rfl hbody

theorem decode_movRm32Imm32 {m : RM Reg32} (g : BitVec 3) (imm : Word) (rest : List Byte) (hm : m.wf = true) :
    decode (encode (.movRm32Imm32 g m imm) ++ rest) = .ok (.movRm32Imm32 g m imm, 6 + m.dispLength) := by
  have hbody : decodeBody .movRm32Imm32 ⟨1, encodeRM Reg32.code g m ++ wordBytes imm ++ rest, []⟩ =
      .ok (.movRm32Imm32 g m imm, ⟨1 + 1 + m.dispLength + 4, rest, []⟩) := by
    rw [List.append_assoc, decodeBody, withModRM_encodeRM 1 _ Reg32.code g _ hm, rm32_map_code]
    exact withWord_wordBytes _ rest imm _
  rw [show 6 + m.dispLength = 1 + 1 + m.dispLength + 4 by omega]
  exact decode_of_body .movRm32Imm32 rfl hbody

theorem dispatch_incR32 (r : Reg32) : dispatch (opcodeReg 0x40 r.code) = some (.incR32 r) := by
  cases r <;> rfl

theorem dispatch_pushR32 (r : Reg32) : dispatch (opcodeReg 0x50 r.code) = some (.pushR32 r) := by
  cases r <;> rfl

theorem dispatch_popR32 (r : Reg32) : dispatch (opcodeReg 0x58 r.code) = some (.popR32 r) := by
  cases r <;> rfl

theorem dispatch_movR8Imm8 (r : Reg8) : dispatch (opcodeReg 0xB0 r.code) = some (.movR8Imm8 r) := by
  cases r <;> rfl

theorem dispatch_movR32Imm32 (r : Reg32) : dispatch (opcodeReg 0xB8 r.code) = some (.movR32Imm32 r) := by
  cases r <;> rfl

/-- A well-formed instruction's bytes, whatever follows them, decode to it with the length of its format. -/
theorem decode_encode_append {i : Instr} (rest : List Byte) (hi : i.wf = true) :
    decode (encode i ++ rest) = .ok (i, i.length) := by
  cases i with
  | jmpRel32 rel => exact decode_of_body .jmpRel32 rfl (withWord_wordBytes 1 rest rel _)
  | jsRel8 rel => exact decode_of_body .jsRel8 rfl (withByte_cons 1 rest rel _)
  | jzRel8 rel => exact decode_of_body .jzRel8 rfl (withByte_cons 1 rest rel _)
  | jleRel8 rel => exact decode_of_body .jleRel8 rfl (withByte_cons 1 rest rel _)
  | cmpAlImm8 imm => exact decode_of_body .cmpAlImm8 rfl (withByte_cons 1 rest imm _)
  | cmpR32Rm32 r m =>
    exact decode_modRM .cmpR32Rm32 (fun x c => .ok (.cmpR32Rm32 (Reg32.ofCode x.reg) x.rm32, c))
      rest hi rfl (fun _ => rfl) fun _ => by simp [rm32_map_code]
  | cmpRm32Imm8 m imm => exact decode_group83 .cmpRm32Imm8 imm rest (fun _ _ => rfl) hi
  | addRm32R32 m r =>
    exact decode_modRM .addRm32R32 (fun x c => .ok (.addRm32R32 x.rm32 (Reg32.ofCode x.reg), c))
      rest hi rfl (fun _ => rfl) fun _ => by simp [rm32_map_code]
  | addRm32Imm8 m imm => exact decode_group83 .addRm32Imm8 imm rest (fun _ _ => rfl) hi
  | subRm32Imm8 m imm => exact decode_group83 .subRm32Imm8 imm rest (fun _ _ => rfl) hi
  | movRm32R32 m r =>
    exact decode_modRM .movRm32R32 (fun x c => .ok (.movRm32R32 x.rm32 (Reg32.ofCode x.reg), c))
      rest hi rfl (fun _ => rfl) fun _ => by simp [rm32_map_code]
  | movR32Rm32 r m =>
    exact decode_modRM .movR32Rm32 (fun x c => .ok (.movR32Rm32 (Reg32.ofCode x.reg) x.rm32, c))
      rest hi rfl (fun _ => rfl) fun _ => by simp [rm32_map_code]
  | movR8Rm8 r m =>
    exact decode_modRM .movR8Rm8 (fun x c => .ok (.movR8Rm8 (Reg8.ofCode x.reg) x.rm8, c))
      rest hi rfl (fun _ => rfl) fun _ => by simp [rm8_map_code]
  | movRm32Imm32 g m imm => exact decode_movRm32Imm32 g imm rest hi
  | movR8Imm8 r imm => exact decode_of_body _ (dispatch_movR8Imm8 r) (withByte_cons 1 rest imm _)
  | movR32Imm32 r imm => exact decode_of_body _ (dispatch_movR32Imm32 r) (withWord_wordBytes 1 rest imm _)
  | incRm32 m =>
    exact decode_modRM .groupFF decodeGroupFF rest hi rfl (fun _ => rfl) fun _ => by simp [decodeGroupFF, rm32_map_code]
  | incR32 r => exact decode_of_body (rest := rest) _ (dispatch_incR32 r) rfl
  | pushR32 r => exact decode_of_body (rest := rest) _ (dispatch_pushR32 r) rfl
  | popR32 r => exact decode_of_body (rest := rest) _ (dispatch_popR32 r) rfl
  | pushImm8 imm => exact decode_of_body .pushImm8 rfl (withByte_cons 1 rest imm _)
  | callRel32 rel => exact decode_of_body .callRel32 rfl (withWord_wordBytes 1 rest rel _)
  | ret => exact decode_of_body (rest := rest) .ret rfl rfl
  | leave => exact decode_of_body (rest := rest) .leave rfl rfl
  | negRm32 m =>
    exact decode_modRM .groupF7 decodeGroupF7 rest hi rfl (fun _ => rfl) fun _ => by simp [decodeGroupF7, rm32_map_code]
  | intImm8 vec => exact decode_of_body .intImm8 rfl (withByte_cons 1 rest vec _)
  | inAlDx => exact decode_of_body (rest := rest) .inAlDx rfl rfl
  | outDxAl => exact decode_of_body (rest := rest) .outDxAl rfl rfl

/-! ### The decoder consumes no byte that is not there (R38, R50) -/

/-- Where the bytes of a cursor end, counted from the first byte of the instruction. -/
def streamEnd (c : Cursor) : Nat :=
  c.pos + c.rest.length + c.wrapped.length

theorem streamEnd_next (p : Nat) (rest wrapped : List Byte) :
    streamEnd (Cursor.next p rest wrapped) = p + rest.length + wrapped.length := by
  cases rest <;> simp [streamEnd, Cursor.next]

/-- A parser that moves its cursor within the bytes there are. -/
def KeepsEnd {A : Type} (f : Cursor → Except DecodeError (A × Cursor)) : Prop :=
  ∀ c x c', f c = .ok (x, c') → streamEnd c' = streamEnd c

theorem KeepsEnd.pure {A : Type} (x : A) : KeepsEnd (fun c => .ok (x, c)) := by
  rintro c y c' ⟨⟩
  rfl

theorem KeepsEnd.error {A : Type} (e : DecodeError) : KeepsEnd (A := A) (fun _ => .error e) := by
  rintro c x c' ⟨⟩

theorem KeepsEnd.bind {A B : Type} {f : Cursor → Except DecodeError (A × Cursor)}
    {g : A → Cursor → Except DecodeError (B × Cursor)} (hf : KeepsEnd f) (hg : ∀ a, KeepsEnd (g a)) :
    KeepsEnd (fun c => do
      let (a, c') ← f c
      g a c') := by
  intro c y c' h
  rcases hc : f c with e | ⟨x, c1⟩ <;> simp only [Bind.bind, Except.bind, hc] at h
  · cases h
  · rw [hg x c1 y c' h, hf c x c1 hc]

theorem KeepsEnd.ite {A : Type} {p : Prop} [Decidable p] {f g : Cursor → Except DecodeError (A × Cursor)}
    (hf : KeepsEnd f) (hg : KeepsEnd g) : KeepsEnd (fun c => if p then f c else g c) := by
  by_cases h : p <;> simp only [h, if_true, if_false] <;> assumption

theorem keepsEnd_fetch8 : KeepsEnd fetch8 := by
  intro c b c' h
  rcases fetch8_cases c with ⟨b', bs, hr, hf⟩ | ⟨-, hf⟩ <;> rw [hf] at h <;> cases h
  rw [streamEnd_next, streamEnd, hr, List.length_cons]
  omega

theorem keepsEnd_fetch32 : KeepsEnd fetch32 := by
  intro c w c' h
  rcases fetch32_cases c with ⟨w', bs, hr, hf⟩ | ⟨-, hf⟩ <;> rw [hf] at h <;> cases h
  rw [streamEnd_next, streamEnd, hr, List.length_append, wordBytes_length]
  omega

theorem keepsEnd_resolveAfter (b : Byte) : KeepsEnd (resolveAfter b) := by
  refine .ite (.pure _) (.ite (.error _) (.ite (.error _) (.ite (.pure _) (.ite ?_ ?_))))
  · exact KeepsEnd.bind keepsEnd_fetch8
      (g := fun d c2 => .ok ((⟨regField b, .mem (Reg32.ofCode (rmField b)) (.disp8 d)⟩ : ModRM), c2)) fun _ => .pure _
  · exact KeepsEnd.bind keepsEnd_fetch32
      (g := fun d c2 => .ok ((⟨regField b, .mem (Reg32.ofCode (rmField b)) (.disp32 d)⟩ : ModRM), c2)) fun _ => .pure _

theorem keepsEnd_withByte (k : Byte → Instr) : KeepsEnd (fun c => withByte c k) :=
  KeepsEnd.bind keepsEnd_fetch8 fun _ => .pure _

theorem keepsEnd_withWord (k : Word → Instr) : KeepsEnd (fun c => withWord c k) :=
  KeepsEnd.bind keepsEnd_fetch32 fun _ => .pure _

theorem keepsEnd_withModRM {k : ModRM → Cursor → Except DecodeError (Instr × Cursor)} (h : ∀ m, KeepsEnd (k m)) :
    KeepsEnd (fun c => withModRM c k) :=
  KeepsEnd.bind (KeepsEnd.bind keepsEnd_fetch8 keepsEnd_resolveAfter) h

theorem keepsEnd_withModRM_ok (f : ModRM → Instr) : KeepsEnd (fun c => withModRM c fun m c' => .ok (f m, c')) :=
  keepsEnd_withModRM (k := fun m c' => .ok (f m, c')) fun _ => .pure _

theorem keepsEnd_decodeGroup83 (m : ModRM) : KeepsEnd (decodeGroup83 m) := by
  unfold decodeGroup83
  split
  · exact keepsEnd_withByte _
  · exact keepsEnd_withByte _
  · exact keepsEnd_withByte _
  · exact .error _

theorem keepsEnd_decodeBody (h : Handler) : KeepsEnd (decodeBody h) := by
  cases h with
  | jmpRel32 | movR32Imm32 | callRel32 => exact keepsEnd_withWord _
  | jsRel8 | jzRel8 | jleRel8 | cmpAlImm8 | movR8Imm8 | pushImm8 | intImm8 => exact keepsEnd_withByte _
  | cmpR32Rm32 => exact keepsEnd_withModRM_ok fun m => .cmpR32Rm32 (Reg32.ofCode m.reg) m.rm32
  | addRm32R32 => exact keepsEnd_withModRM_ok fun m => .addRm32R32 m.rm32 (Reg32.ofCode m.reg)
  | movRm32R32 => exact keepsEnd_withModRM_ok fun m => .movRm32R32 m.rm32 (Reg32.ofCode m.reg)
  | movR32Rm32 => exact keepsEnd_withModRM_ok fun m => .movR32Rm32 (Reg32.ofCode m.reg) m.rm32
  | movR8Rm8 => exact keepsEnd_withModRM_ok fun m => .movR8Rm8 (Reg8.ofCode m.reg) m.rm8
  | movRm32Imm32 =>
    exact keepsEnd_withModRM (k := fun m c' => withWord c' (.movRm32Imm32 m.reg m.rm32)) fun _ => keepsEnd_withWord _
  | group83 => exact keepsEnd_withModRM keepsEnd_decodeGroup83
  | groupFF => exact keepsEnd_withModRM fun _ => .ite (.pure _) (.error _)
  | groupF7 => exact keepsEnd_withModRM fun _ => .ite (.pure _) (.error _)
  | incR32 | pushR32 | popR32 | ret | leave | inAlDx | outDxAl => exact .pure _

/-- The length of a decoded instruction is at most the number of bytes there. -/
theorem decode_length_le {bs : List Byte} {i : Instr} {n : Nat} (h : decode bs = .ok (i, n)) : n ≤ bs.length := by
  unfold decode decodeFrom at h
  rcases hop : fetch8 ⟨0, bs, []⟩ with e | ⟨op, c⟩ <;> simp only [hop, bind, Except.bind] at h
  · cases h
  · split at h
    · cases h
    next hd _ =>
      rcases hb : decodeBody hd c with e | ⟨j, c'⟩ <;> simp only [hb] at h
      · cases h
      obtain ⟨rfl, rfl⟩ : j = i ∧ c'.pos = n := by simpa [pure, Except.pure] using h
      have hend : streamEnd c' = streamEnd ⟨0, bs, []⟩ :=
        (keepsEnd_decodeBody hd c j c' hb).trans (keepsEnd_fetch8 _ op c hop)
      simp only [streamEnd, List.length_nil] at hend
      omega

/-- The family EncodeLength, put together. -/
theorem length_encode : ∀ i : Instr, (encode i).length = i.length
  | .jmpRel32 rel => Laws.EncodeLength.jmpRel32 rel
  | .jsRel8 rel => Laws.EncodeLength.jsRel8 rel
  | .jzRel8 rel => Laws.EncodeLength.jzRel8 rel
  | .jleRel8 rel => Laws.EncodeLength.jleRel8 rel
  | .cmpAlImm8 imm => Laws.EncodeLength.cmpAlImm8 imm
  | .cmpR32Rm32 r m => Laws.EncodeLength.cmpR32Rm32 r m
  | .cmpRm32Imm8 m imm => Laws.EncodeLength.cmpRm32Imm8 m imm
  | .addRm32R32 m r => Laws.EncodeLength.addRm32R32 m r
  | .addRm32Imm8 m imm => Laws.EncodeLength.addRm32Imm8 m imm
  | .subRm32Imm8 m imm => Laws.EncodeLength.subRm32Imm8 m imm
  | .movRm32R32 m r => Laws.EncodeLength.movRm32R32 m r
  | .movR32Rm32 r m => Laws.EncodeLength.movR32Rm32 r m
  | .movR8Rm8 r m => Laws.EncodeLength.movR8Rm8 r m
  | .movRm32Imm32 g m imm => Laws.EncodeLength.movRm32Imm32 g m imm
  | .movR8Imm8 r imm => Laws.EncodeLength.movR8Imm8 r imm
  | .movR32Imm32 r imm => Laws.EncodeLength.movR32Imm32 r imm
  | .incRm32 m => Laws.EncodeLength.incRm32 m
  | .incR32 r => Laws.EncodeLength.incR32 r
  | .pushR32 r => Laws.EncodeLength.pushR32 r
  | .popR32 r => Laws.EncodeLength.popR32 r
  | .pushImm8 imm => Laws.EncodeLength.pushImm8 imm
  | .callRel32 rel => Laws.EncodeLength.callRel32 rel
  | .ret => Laws.EncodeLength.ret
  | .leave => Laws.EncodeLength.leave
  | .negRm32 m => Laws.EncodeLength.negRm32 m
  | .intImm8 vec => Laws.EncodeLength.intImm8 vec
  | .inAlDx => Laws.EncodeLength.inAlDx
  | .outDxAl => Laws.EncodeLength.outDxAl

theorem dispLength_le {R : Type} (m : RM R) : m.dispLength ≤ 4 := by
  rcases m with r | ⟨base, _ | d | d⟩ <;> simp [RM.dispLength]

/-- R50: the longest form is `mov rm32, imm32` with a four-byte displacement. -/
theorem length_le_maxLength (i : Instr) : i.length ≤ maxLength := by
  cases i with
  | cmpR32Rm32 _ m | cmpRm32Imm8 m _ | addRm32R32 m _ | addRm32Imm8 m _ | subRm32Imm8 m _ | movRm32R32 m _
  | movR32Rm32 _ m | movR8Rm8 _ m | movRm32Imm32 _ m _ | incRm32 m | negRm32 m =>
    have hdisp := dispLength_le m
    simp only [Instr.length, maxLength]
    omega
  | jmpRel32 | jsRel8 | jzRel8 | jleRel8 | cmpAlImm8 | movR8Imm8 | movR32Imm32 | incR32 | pushR32 | popR32 | pushImm8
  | callRel32 | ret | leave | intImm8 | inAlDx | outDxAl =>
    simp [Instr.length, maxLength]

/-- The first bytes of a well-formed instruction, fewer than all, want more of them: they have no rejection of their
own, for the whole has none, and hold no shorter instruction, for the whole would decode to that. -/
theorem decode_take_encode {i : Instr} {k : Nat} (hi : i.wf = true) (hk : k < i.length) :
    ∃ offset n, decode ((encode i).take k) = .error (.endOfStream offset n) := by
  have hext := decodeFrom_extends ((encode i).take k) ((encode i).drop k) []
  have hwhole : decodeFrom (encode i) [] = .ok (i, i.length) := by
    simpa [decode] using decode_encode_append [] hi
  rw [List.take_append_drop, hwhole] at hext
  rcases hd : decode ((encode i).take k) with e | ⟨j, n⟩ <;> simp only [hd] at hext
  · rcases hext with ⟨offset, n, rfl⟩ | herr
    · exact ⟨offset, n, rfl⟩
    · cases herr
  · cases hext
    have hle := decode_length_le hd
    have htake := List.length_take_le k (encode i)
    omega

end Sys2Proof.Proofs.DecoderRules

namespace Sys2Proof.Proofs.MemoryRules

open Sys2Proof.Machine Sys2Proof.Claims Sys2Proof.Proofs.StateRules Sys2Proof.Proofs.DecoderRules

/-! ### What an instruction does to memory (R30, R31, R34, R36) -/

/-- `t` has the memory of `s`, or that memory with one word stored at the address `o`, inside its bounds. -/
inductive StoresWord (o : Option Word) (s t : State) : Prop where
  | keeps (hm : t.mem = s.mem)
  | stores (a v : Word) (ho : o = some a) (hf : a.toNat + 4 ≤ s.cfg.memSize)
      (hm : t.mem = s.mem.writeBytes a.toNat (wordBytes v))

/-- Operations that leave memory alone may follow a store. -/
theorem StoresWord.of_mem_eq {o : Option Word} {s t u : State} (h : StoresWord o s t) (hu : u.mem = t.mem) :
    StoresWord o s u := by
  cases h with
  | keeps hm => exact .keeps (hu.trans hm)
  | stores a v ho hf hm => exact .stores a v ho hf (hu.trans hm)

/-- A store keeps the invariant (R30, R34). -/
theorem StoresWord.inv {o : Option Word} {s t : State} (h : StoresWord o s t) (hc : t.cfg = s.cfg) (hs : s.Inv) :
    t.Inv := by
  cases h with
  | keeps hm => exact Inv.of_mem_eq hs hm hc
  | stores a v _ hf hm => exact Inv.of_mem_eq (Inv.withBytes hs a.toNat (wordBytes v) (by simpa using hf)) hm hc

/-- A byte outside the word stored is as before (R34). -/
theorem StoresWord.byteAt_outside {o : Option Word} {s t : State} (h : StoresWord o s t) {x : Nat}
    (hx : ∀ a, o = some a → x < a.toNat ∨ a.toNat + 4 ≤ x) : t.byteAt x = s.byteAt x := by
  cases h with
  | keeps hm => rw [State.byteAt, hm, State.byteAt]
  | stores a v ho _ hm =>
    rw [State.byteAt, hm]
    exact Memory.read_writeBytes_outside _ (by simpa using hx a ho)

theorem setRM32_storesWord {s t : State} {m : RM Reg32} {v : Word} (h : s.setRM32 m v = .ok t) :
    StoresWord (operandAddr s m) s t := by
  rcases setRM32_cases s m v with ⟨r, rfl, hr⟩ | ⟨base, d, rfl, hf, hr⟩ | ⟨base, d, rfl, -, hr⟩ <;>
    rw [hr] at h <;> cases h
  · exact .keeps rfl
  · exact .stores _ v rfl hf rfl

theorem modifyRM32_storesWord {s t : State} {m : RM Reg32} {f : Word → Word} (h : s.modifyRM32 m f = .ok t) :
    StoresWord (operandAddr s m) s t := by
  obtain ⟨a, -, ha⟩ := bind_eq_ok h
  exact setRM32_storesWord ha

theorem push32_storesWord {s t : State} {v : Word} (h : s.push32 v = .ok t) :
    StoresWord (some (s.get32 .esp - 4)) s t := by
  rcases push32_cases s v with ⟨hf, hr⟩ | ⟨-, hr⟩ <;> rw [hr] at h <;> cases h
  exact .stores _ v rfl hf rfl

theorem pop32_mem {s t : State} {v : Word} (h : s.pop32 = .ok (v, t)) : t.mem = s.mem := by
  rcases pop32_cases s with ⟨-, hr⟩ | ⟨-, hr⟩ <;> rw [hr] at h <;> cases h
  rfl

theorem subFlags_mem (s : State) (a imm : Word) : (s.subFlags a imm).mem = s.mem := by
  unfold State.subFlags
  split <;> rfl

theorem branch_mem (s : State) (taken : Bool) (rel : Byte) : (s.branch taken rel).mem = s.mem := by
  cases taken <;> rfl

/-- What a handler ends in: the stop, or what its successes have in common (R82). -/
theorem finish_or {s t : State} {r : Except StopError State} {P : State → Prop} (h : s.finish r = .next t)
    (hr : ∀ u, r = .ok u → P u) : (∃ e, t = s.stopInHandler e) ∨ P t := by
  rcases finish_cases h with hok | ⟨e, -, rfl⟩
  · exact .inr (hr t hok)
  · exact .inl ⟨e, rfl⟩

theorem finish_bind_or {α : Type} {s t : State} {x : Except StopError α} {f : α → Except StopError State}
    {P : State → Prop} (h : s.finish (x >>= f) = .next t) (hr : ∀ a u, x = .ok a → f a = .ok u → P u) :
    (∃ e, t = s.stopInHandler e) ∨ P t :=
  finish_or h fun u hu =>
    let ⟨a, ha, hu⟩ := bind_eq_ok hu
    hr a u ha hu

theorem next_or {s t u : State} {P : State → Prop} (h : (.next u : Result) = .next t) (hu : P u) :
    (∃ e, t = s.stopInHandler e) ∨ P t := by
  obtain rfl := Host.Outcome.next.inj h
  exact .inr hu

theorem videoService_mem {s t : State} (h : s.videoService = .ok t) : t.mem = s.mem := by
  by_cases hah : s.get8 .ah = 0x0E
  · rw [videoService_of_teletype hah] at h
    cases h
    rfl
  · rw [videoService_of_other hah] at h
    cases h

theorem portWrite_mem {s t : State} {port : Port} {b : Byte} (h : s.portWrite port b = .ok t) : t.mem = s.mem := by
  unfold State.portWrite at h
  split at h <;> cases h
  rfl

theorem execInAlDx_mem {s t : State} (h : execInAlDx s = .next t) : t.mem = s.mem := by
  unfold execInAlDx at h
  split at h <;> cases h
  next b u hread =>
    obtain ⟨n, rfl⟩ := portRead_eq_some hread
    rfl

/-- Everything an instruction with a next state can do to memory: stop inside its handler, or store at most the word at
its store address (R36, R82). -/
theorem exec_storesWord {i : Instr} {s t : State} (h : exec i s = .next t) :
    (∃ e, t = s.stopInHandler e) ∨ StoresWord (storeAddr s i) s t := by
  cases i with
  | jmpRel32 rel => exact next_or h (.keeps rfl)
  | jsRel8 rel => exact next_or h (.keeps (branch_mem _ _ _))
  | jzRel8 rel => exact next_or h (.keeps (branch_mem _ _ _))
  | jleRel8 rel => exact next_or h (.keeps (branch_mem _ _ _))
  | cmpAlImm8 imm => exact next_or h (.keeps rfl)
  | cmpR32Rm32 r m =>
    refine finish_bind_or h ?_
    rintro b u - ⟨⟩
    exact .keeps rfl
  | cmpRm32Imm8 m imm =>
    refine finish_bind_or h ?_
    rintro a u - ⟨⟩
    exact .keeps rfl
  | addRm32R32 m r => exact finish_or h fun _ => modifyRM32_storesWord
  | addRm32Imm8 m imm => exact finish_or h fun _ => modifyRM32_storesWord
  | subRm32Imm8 m imm =>
    refine finish_bind_or h fun a u _ hu => ?_
    split at hu
    · cases hu
    · obtain ⟨p, hp, ⟨⟩⟩ := bind_eq_ok hu
      exact (setRM32_storesWord hp).of_mem_eq (subFlags_mem _ _ _)
  | movRm32R32 m r => exact finish_or h fun _ => setRM32_storesWord
  | movR32Rm32 r m =>
    refine finish_bind_or h ?_
    rintro v u - ⟨⟩
    exact .keeps rfl
  | movR8Rm8 r m =>
    refine finish_bind_or h ?_
    rintro v u - ⟨⟩
    exact .keeps rfl
  | movRm32Imm32 g m imm => exact finish_or h fun _ => setRM32_storesWord
  | movR8Imm8 r imm => exact next_or h (.keeps rfl)
  | movR32Imm32 r imm => exact next_or h (.keeps rfl)
  | incRm32 m => exact finish_or h fun _ => modifyRM32_storesWord
  | incR32 r => exact next_or h (.keeps rfl)
  | pushR32 r => exact finish_or h fun _ => push32_storesWord
  | popR32 r =>
    refine finish_bind_or h ?_
    rintro ⟨v, p⟩ u hp ⟨⟩
    have hm : p.mem = s.mem := pop32_mem hp
    exact .keeps hm
  | pushImm8 imm => exact finish_or h fun _ => push32_storesWord
  | callRel32 rel =>
    refine finish_bind_or h ?_
    rintro p u hp ⟨⟩
    exact (push32_storesWord hp).of_mem_eq rfl
  | ret =>
    refine finish_bind_or h ?_
    rintro ⟨v, p⟩ u hp ⟨⟩
    have hm : p.mem = s.mem := pop32_mem hp
    exact .keeps hm
  | leave =>
    refine finish_bind_or h ?_
    rintro ⟨v, p⟩ u hp ⟨⟩
    have hm : p.mem = (s.set32 .esp (s.get32 .ebp)).mem := pop32_mem hp
    exact .keeps hm
  | negRm32 m => exact finish_or h fun _ => modifyRM32_storesWord
  | intImm8 vec =>
    refine finish_or h fun u hu => ?_
    split at hu
    · exact .keeps (videoService_mem hu)
    · cases hu
  | inAlDx => exact .inr (.keeps (execInAlDx_mem h))
  | outDxAl => exact finish_or h fun _ hu => .keeps (portWrite_mem hu)

/-- A rejected fetch keeps the invariant, at dispatch and inside a handler (R164). -/
theorem reject_inv {s : State} (hs : s.Inv) (e : DecodeError) : (s.reject e).Inv := by
  unfold State.reject
  split
  · exact Inv.of_mem_eq hs rfl rfl
  · exact Inv.stopInHandler hs _

theorem exec_inv {i : Instr} {s t : State} (h : exec i s = .next t) (hs : s.Inv) : t.Inv := by
  rcases exec_storesWord h with ⟨e, rfl⟩ | hst
  · exact Inv.stopInHandler hs e
  · obtain ⟨-, hc, -⟩ := exec_appends h
    exact hst.inv hc hs

/-- Settles O14: the stop of a rejected fetch keeps the invariant, and so does an instruction run with `eip` past it. -/
theorem stepKeepsInvariant : Obligations.StepKeepsInvariant := by
  intro s t hs h
  rcases step_cases h with ⟨e, rfl⟩ | ⟨i, n, hexec⟩
  · exact reject_inv hs e
  · exact exec_inv hexec (Inv.of_mem_eq hs rfl rfl)

/-- Settles O46: an instruction that leaves the core running stores at most the word at its store address. -/
theorem memoryFrame : Obligations.MemoryFrame := by
  intro i s t h hrun x hx
  rcases exec_storesWord h with ⟨e, rfl⟩ | hst
  · cases hrun
  · exact hst.byteAt_outside hx

/-! ### Accesses outside memory (R31, R161) -/

/-- A handler that raises stops the core with that error (R82, R160). -/
theorem finish_stops {s : State} {r : Except StopError State} {e : StopError} (h : r = .error e) :
    ∃ t, s.finish r = .next t ∧ StopsInHandler s t e := by
  subst h
  exact ⟨_, rfl, rfl, rfl, rfl, rfl⟩

/-- So does one whose first operation raises. -/
theorem finish_bind_stops {α : Type} {s : State} {x : Except StopError α} {f : α → Except StopError State}
    {e : StopError} (h : x = .error e) : ∃ t, s.finish (x >>= f) = .next t ∧ StopsInHandler s t e :=
  finish_stops (by rw [h]; rfl)

section Outside
variable {s : State} {a : Word}

theorem getRM32_outside {m : RM Reg32} (hm : operandAddr s m = some a) (h : ¬ Fits s a 4) :
    s.getRM32 m = .error (.outOfBounds a 4) := by
  cases m with
  | reg r => cases hm
  | mem base d =>
    cases hm
    exact memRead32_of_not_fits h

theorem getRM8_outside {m : RM Reg8} (hm : operandAddr s m = some a) (h : ¬ Fits s a 1) :
    s.getRM8 m = .error (.outOfBounds a 1) := by
  cases m with
  | reg r => cases hm
  | mem base d =>
    cases hm
    exact memRead8_of_not_fits h

theorem setRM32_outside {m : RM Reg32} (v : Word) (hm : operandAddr s m = some a) (h : ¬ Fits s a 4) :
    s.setRM32 m v = .error (.outOfBounds a 4) := by
  cases m with
  | reg r => cases hm
  | mem base d =>
    cases hm
    exact memWrite32_of_not_fits v h

theorem push32_outside (v : Word) (h : ¬ Fits s (s.get32 .esp - 4) 4) :
    s.push32 v = .error (.outOfBounds (s.get32 .esp - 4) 4) :=
  memWrite32_of_not_fits v h

theorem pop32_outside (h : ¬ Fits s (s.get32 .esp) 4) : s.pop32 = .error (.outOfBounds (s.get32 .esp) 4) := by
  rcases pop32_cases s with ⟨hf, -⟩ | ⟨-, hr⟩
  · exact absurd hf h
  · exact hr

end Outside

/-- The access of a form with an `rm` operand is at the operand's address. -/
theorem operandAddr_map_eq_some {R : Type} {s : State} {m : RM R} {k n : Nat} {a : Word}
    (h : (operandAddr s m).map (·, k) = some (a, n)) : operandAddr s m = some a ∧ k = n := by
  cases m with
  | reg r => cases h
  | mem base d =>
    cases h
    exact ⟨rfl, rfl⟩

/-- Settles O40, instruction by instruction: the access is the first operation of its handler. -/
theorem accessOutsideMemoryStops : Obligations.AccessOutsideMemoryStops := by
  intro s i a n hacc hfit
  cases i with
  | cmpR32Rm32 r m | cmpRm32Imm8 m imm | addRm32R32 m r | addRm32Imm8 m imm | subRm32Imm8 m imm | movR32Rm32 r m
  | incRm32 m | negRm32 m =>
    obtain ⟨hm, rfl⟩ := operandAddr_map_eq_some hacc
    exact finish_bind_stops (getRM32_outside hm hfit)
  | movR8Rm8 r m =>
    obtain ⟨hm, rfl⟩ := operandAddr_map_eq_some hacc
    exact finish_bind_stops (getRM8_outside hm hfit)
  | movRm32R32 m r | movRm32Imm32 g m imm =>
    obtain ⟨hm, rfl⟩ := operandAddr_map_eq_some hacc
    exact finish_stops (setRM32_outside _ hm hfit)
  | pushR32 r | pushImm8 imm =>
    cases hacc
    exact finish_stops (push32_outside _ hfit)
  | callRel32 rel =>
    cases hacc
    exact finish_bind_stops (push32_outside _ hfit)
  | popR32 r | ret =>
    cases hacc
    exact finish_bind_stops (pop32_outside hfit)
  | leave =>
    cases hacc
    exact finish_bind_stops (pop32_outside (s := s.set32 .esp (s.get32 .ebp)) hfit)
  | jmpRel32 | jsRel8 | jzRel8 | jleRel8 | cmpAlImm8 | movR8Imm8 | movR32Imm32 | incR32 | intImm8 | inAlDx | outDxAl =>
    cases hacc

/-! ### Reads and writes of memory (R32 to R34) -/

/-- The value of bytes in address order is the sum of R33. -/
theorem leNat_readBytes (m : Memory) (a n : Nat) :
    leNat (m.readBytes a n) = ((List.range n).map fun k => (m.read (a + k)).toNat * 2 ^ (8 * k)).sum := by
  induction n generalizing a with
  | zero => rfl
  | succ n ih =>
    have hterm : ∀ k, (m.read (a + (k + 1))).toNat * 2 ^ (8 * (k + 1)) =
        256 * ((m.read (a + 1 + k)).toNat * 2 ^ (8 * k)) := by
      intro k
      rw [show a + (k + 1) = a + 1 + k by omega, show 8 * (k + 1) = 8 * k + 8 by omega, pow_add]
      ring
    simp [Memory.readBytes, leNat, ih, List.range_succ_eq_map, Function.comp_def, hterm, List.sum_map_mul_left]

/-- Settles O21, by the sum that the bytes in address order make. -/
theorem readIsTheLittleEndianSum : Obligations.ReadIsTheLittleEndianSum := by
  intro s a n _
  refine ⟨fun h => memRead_of_not_fits (Nat.not_le.mpr h), fun h => ?_⟩
  rw [memRead_of_fits h, leNat_readBytes]
  rfl

/-- Byte k of a value that is stored (R34). -/
theorem byteAt_withBytes_leBytes {s : State} (hs : Memory.wf s.mem) (a : Nat) {n k : Nat} (v : Nat) (hk : k < n) :
    (s.withBytes a (leBytes n v)).byteAt (a + k) = BitVec.ofNat 8 (v / 256 ^ k) := by
  have hlen : k < (leBytes n v).length := by rwa [leBytes_length]
  rw [State.byteAt, withBytes_mem, Memory.read_writeBytes_inside _ k hlen hs, leBytes_getElem]

/-- Settles O22, byte by byte of the value stored. -/
theorem writeStoresEachByte : Obligations.WriteStoresEachByte := by
  intro s a n v _ hs _
  refine ⟨fun h => memWrite_of_not_fits (Nat.not_le.mpr h), fun h => ⟨_, memWrite_of_fits h, rfl, fun k hk => ?_, ?_⟩⟩
  · rw [byteAt_withBytes_leBytes hs.wf a.toNat v hk, BitVec.toNat_ofNat, pow_mul]
    rfl
  · intro x hx
    exact Memory.read_writeBytes_outside _ (by simpa using hx)

/-- What a 32-bit store that succeeds leaves (R34). -/
theorem memWrite32_eq_ok {s t : State} {a v : Word} (h : s.memWrite32 a v = .ok t) :
    a.toNat + 4 ≤ s.cfg.memSize ∧ t = s.withBytes a.toNat (wordBytes v) := by
  rcases memWrite32_cases s a v with ⟨hf, hr⟩ | ⟨-, hr⟩ <;> rw [hr] at h <;> cases h
  exact ⟨hf, rfl⟩

/-- A stored word reads back whole (R32). -/
theorem word_withBytes_wordBytes {s : State} (hs : Memory.wf s.mem) (a : Nat) (v : Word) :
    (s.withBytes a (wordBytes v)).word a = v := by
  have hread := Memory.readBytes_writeBytes a (wordBytes v) hs
  rw [wordBytes_length] at hread
  rw [State.word, withBytes_mem, hread, ofNat_leNat_wordBytes]

/-- A byte inside a stored word (R32, R34). -/
theorem byteAt_withBytes_wordBytes_inside {s : State} (hs : Memory.wf s.mem) (a : Nat) (v : Word) {k : Nat}
    (hk : k < 4) : (s.withBytes a (wordBytes v)).byteAt (a + k) = v.extractLsb' (8 * k) 8 := by
  rw [byteAt_withBytes_wordBytes s hs, if_pos (by omega), Nat.add_sub_cancel_left]

/-- A byte below a value, in numbers (R32). -/
theorem toNat_append_byte {w : Nat} (x : BitVec w) (b : Byte) : (x ++ b).toNat = 256 * x.toNat + b.toNat := by
  rw [BitVec.toNat_append, ← Nat.shiftLeft_add_eq_or_of_lt b.isLt, Nat.shiftLeft_eq, Nat.mul_comm]

/-- The word that four bytes in memory make, as the statements write it. -/
theorem wordAt_eq_word (s : State) (a : Nat) : wordAt s a = s.word a := by
  apply BitVec.eq_of_toNat_eq
  have hlt := (wordAt s a).isLt
  simp only [wordAt, toNat_append_byte, State.byteAt] at hlt
  simp only [wordAt, State.word, Memory.readBytes, leNat, State.byteAt, toNat_append_byte, BitVec.toNat_ofNat,
    Nat.add_assoc, Nat.reduceAdd]
  omega

/-- A 16-bit read is its two bytes, the lower address the less significant (R32, R33). -/
theorem memRead16_of_fits {s : State} {a : Word} (h : a.toNat + 2 ≤ s.cfg.memSize) :
    s.memRead16 a = .ok (s.byteAt (a.toNat + 1) ++ s.byteAt a.toNat) := by
  rw [State.memRead16, memRead_of_fits h]
  refine congrArg Except.ok (BitVec.eq_of_toNat_eq ?_)
  have h0 := (s.mem.read a.toNat).isLt
  have h1 := (s.mem.read (a.toNat + 1)).isLt
  simp only [Memory.readBytes, leNat, State.byteAt, BitVec.toNat_ofNat, toNat_append_byte]
  omega

/-- Two neighbouring bytes of a word are a half of it. -/
theorem extractLsb'_append_byte (v : Word) (k : Nat) :
    v.extractLsb' (8 * (k + 1)) 8 ++ v.extractLsb' (8 * k) 8 = v.extractLsb' (8 * k) 16 := by
  rw [BitVec.extractLsb'_append_extractLsb'_eq_extractLsb' (by omega)]

/-- Settles O23: each narrow read is at an offset inside the word, where the bytes are those of the value. -/
theorem narrowReadSeesPartOfWord : Obligations.NarrowReadSeesPartOfWord := by
  intro s t a v hs h
  obtain ⟨hfit, rfl⟩ := memWrite32_eq_ok h
  have hsize := hs.size.2
  have hoff : ∀ k, k < 4 → (a + BitVec.ofNat 32 k).toNat = a.toNat + k := by
    intro k hk
    rw [BitVec.toNat_add, BitVec.toNat_ofNat]
    omega
  refine ⟨?_, fun k hk => ?_, fun k hk => ?_⟩
  · rw [memRead32_of_fits (by simpa using hfit), word_withBytes_wordBytes hs.wf]
  · rw [memRead8_of_fits (by rw [hoff k hk, withBytes_cfg]; omega), hoff k hk,
      byteAt_withBytes_wordBytes_inside hs.wf _ _ hk]
  · rw [memRead16_of_fits (by rw [hoff k (by omega), withBytes_cfg]; omega), hoff k (by omega), Nat.add_assoc,
      byteAt_withBytes_wordBytes_inside hs.wf _ _ (by omega), byteAt_withBytes_wordBytes_inside hs.wf _ _ (by omega),
      extractLsb'_append_byte]

/-- What a push that succeeds leaves (R40). -/
theorem push32_eq_ok {s t : State} {v : Word} (h : s.push32 v = .ok t) :
    (s.get32 .esp - 4).toNat + 4 ≤ s.cfg.memSize ∧
    t = (s.set32 .esp (s.get32 .esp - 4)).withBytes (s.get32 .esp - 4).toNat (wordBytes v) :=
  memWrite32_eq_ok h

theorem pop32_of_fits {s : State} (h : (s.get32 .esp).toNat + 4 ≤ s.cfg.memSize) :
    s.pop32 = .ok (s.word (s.get32 .esp).toNat, s.set32 .esp (s.get32 .esp + 4)) := by
  rcases pop32_cases s with ⟨-, hr⟩ | ⟨hn, -⟩
  · exact hr
  · exact absurd h hn

/-- Settles O26: the pop is at the address of the push, in bounds with it, and its two moves of esp cancel. -/
theorem pushThenPopRoundTrip : Obligations.PushThenPopRoundTrip := by
  intro s t v hs h
  obtain ⟨hfit, ht⟩ := push32_eq_ok h
  have hesp : t.get32 .esp = s.get32 .esp - 4 := by rw [ht, get32_withBytes, get32_set32_same]
  have hwf : Memory.wf (s.set32 .esp (s.get32 .esp - 4)).mem := hs.wf
  have hword : t.word (s.get32 .esp - 4).toNat = v := by rw [ht, word_withBytes_wordBytes hwf]
  have hpop := pop32_of_fits (s := t) (by rw [hesp, ht]; exact hfit)
  rw [hesp, hword, BitVec.sub_add_cancel] at hpop
  refine ⟨_, hpop, get32_set32_same _ _ _, ?_⟩
  simp [ht, State.set32, State.withBytes, State.get32]

/-! ### The fetch (R38, R45) -/

theorem cursorNext_pos (p : Nat) (rest wrapped : List Byte) : (Cursor.next p rest wrapped).pos = p := by
  cases rest <;> rfl

/-- A fetch of up to ten bytes that lie in memory takes the bytes at `eip` (R38, R45). -/
theorem fetchLE_of_fits {s : State} {n : Nat} (hn : n ≤ maxLength) (h : s.eip.toNat + n ≤ s.cfg.memSize) :
    ∃ c, fetchLE n ⟨0, s.fetchWindow, s.wrapWindow⟩ = .ok (leNat (s.mem.readBytes s.eip.toNat n), c) ∧ c.pos = n := by
  obtain ⟨k, hk⟩ := Nat.exists_eq_add_of_le (show n ≤ min maxLength (s.cfg.memSize - s.eip.toNat) by omega)
  rw [State.fetchWindow, hk, Memory.readBytes_add, fetchLE_append n 0 _ _ (Memory.readBytes_length _ _ _)]
  exact ⟨_, rfl, by rw [cursorNext_pos, Nat.zero_add]⟩

/-- A read that succeeds is in bounds, and its value that of the bytes in memory (R33). -/
theorem memRead_map_eq_ok {α : Type} {s : State} {a : Word} {n : Nat} {f : Nat → α} {x : α}
    (h : (s.memRead a n).map f = .ok x) : a.toNat + n ≤ s.cfg.memSize ∧ f (leNat (s.mem.readBytes a.toNat n)) = x := by
  by_cases hf : a.toNat + n ≤ s.cfg.memSize
  · rw [memRead_of_fits hf] at h
    exact ⟨hf, Except.ok.inj h⟩
  · rw [memRead_of_not_fits hf] at h
    cases h

/-- Settles O24: each fetch is `fetchLE` of its width, and each read that succeeds is in bounds. -/
theorem fetchAgreesWithDataRead : Obligations.FetchAgreesWithDataRead := by
  intro s
  refine ⟨fun _ h => ?_, fun _ h => ?_, fun _ h => ?_⟩
  all_goals
    obtain ⟨hfit, rfl⟩ := memRead_map_eq_ok h
    obtain ⟨c, hc, hpos⟩ := fetchLE_of_fits (by decide) hfit
    refine ⟨c, ?_, hpos⟩
  · rw [fetch8, hc]
    rfl
  · rw [fetch16, hc]
    rfl
  · rw [fetch32, hc]
    rfl

/-- Settles O25: both windows hold the bytes of memory after the store. -/
theorem storeIsSeenByNextFetch : Obligations.StoreIsSeenByNextFetch := by
  intro s t a v hs h stored
  obtain ⟨-, rfl⟩ := memWrite32_eq_ok h
  have hbyte : ∀ x, (s.withBytes a.toNat (wordBytes v)).byteAt x = stored x := byteAt_withBytes_wordBytes s hs.wf _ _
  refine ⟨hbyte, fetchWindow_length _, fun k hk => ?_, wrapWindow_length _, fun k hk => ?_⟩
  · rw [fetchWindow_getElem, hbyte]
    rfl
  · rw [wrapWindow_getElem, hbyte]

/-! ### The stops of a fetch, and its wrap (R37, R38) -/

theorem step_of_decodeNext_error {s : State} {e : DecodeError} (hrun : s.status = .running)
    (h : s.decodeNext = .error e) : step s = .next (s.reject e) := by
  simp only [step, hrun, h]

theorem step_of_decodeNext_ok {s : State} {i : Instr} {n : Nat} (hrun : s.status = .running)
    (h : s.decodeNext = .ok (i, n)) : step s = exec i (s.advance n) := by
  simp only [step, hrun, h]

/-- Settles O8: no byte at `eip` lies in memory, and the opcode byte's fetch is at dispatch. -/
theorem fetchOutsideMemoryStopsPrecisely : Obligations.FetchOutsideMemoryStopsPrecisely := by
  intro s hrun hout
  have hwindow : s.fetchWindow = [] := by
    rw [← List.length_eq_zero_iff, fetchWindow_length]
    omega
  have hdecode : s.decodeNext = .error (.endOfStream 0 1) := by
    rw [State.decodeNext, hwindow]
    rfl
  rw [step_of_decodeNext_error hrun hdecode]
  simp [State.reject, DecodeError.atDispatch, State.stopAtDispatch, decodeStop]

/-- A rejection for want of bytes stops the core with `EndOfStream` where the missing byte is (R164, R165). -/
theorem reject_endOfStream (s : State) (offset n : Nat) :
    StopsInHandler s (s.reject (.endOfStream offset n)) (.endOfStream (s.eip + BitVec.ofNat 32 offset) n) := by
  unfold State.reject
  split <;> exact ⟨rfl, rfl, rfl, rfl⟩

/-- The bytes below the end of a full address space. -/
theorem fetchWindow_of_top {s : State} {k : Nat} (hsize : s.cfg.memSize = 4294967296) (hk : k ≤ maxLength)
    (heip : s.eip.toNat + k = 4294967296) : s.fetchWindow = s.mem.readBytes s.eip.toNat k := by
  rw [State.fetchWindow, show min maxLength (s.cfg.memSize - s.eip.toNat) = k by omega]

theorem wrapWindow_of_full {s : State} (hsize : s.cfg.memSize = 4294967296) :
    s.wrapWindow = s.mem.readBytes 0 maxLength :=
  if_pos hsize

/-- With the opcode byte at the last address, the bytes after it are those at address 0 and up (R15). -/
theorem decodeNext_of_last {s : State} {op : Byte} {h : Handler} (hsize : s.cfg.memSize = 4294967296)
    (heip : s.eip = 0xFFFFFFFF) (hop : s.byteAt 0xFFFFFFFF = op) (hd : dispatch op = some h) :
    s.decodeNext = (decodeBody h ⟨1, s.mem.readBytes 0 maxLength, []⟩).map fun p => (p.1, p.2.pos) := by
  have hwindow : s.fetchWindow = [op] := by
    rw [fetchWindow_of_top hsize (k := 1) (by decide) (by rw [heip]; rfl), heip, ← hop]
    rfl
  rw [State.decodeNext, hwindow, wrapWindow_of_full hsize, decodeFrom_cons hd]
  rfl

/-- Settles O13: a cursor at the end of memory goes on at address 0, one with bytes left of its fetch does not. -/
theorem fetchCursorWraps : Obligations.FetchCursorWraps := by
  intro s hrun hsize
  refine ⟨fun heip hop => ?_, fun heip hop => ?_, fun heip hop => ?_⟩
  · have hdecode : s.decodeNext = .ok (.pushImm8 (s.byteAt 0), 2) := by
      rw [decodeNext_of_last (h := .pushImm8) hsize heip hop rfl,
        show s.mem.readBytes 0 maxLength = s.byteAt 0 :: s.mem.readBytes 1 9 from rfl]
      simp only [decodeBody, withByte, fetch8_cons]
      rfl
    rw [step_of_decodeNext_ok hrun hdecode, State.advance, heip]
    rfl
  · have hdecode : s.decodeNext = .ok (.movR32Imm32 .ecx (wordAt s 0), 5) := by
      rw [decodeNext_of_last (h := .movR32Imm32 .ecx) hsize heip hop rfl,
        show s.mem.readBytes 0 maxLength = s.mem.readBytes 0 4 ++ s.mem.readBytes 4 6 from rfl, wordAt_eq_word]
      simp only [decodeBody, withWord, fetch32_append _ (s.mem.readBytes 0 4) _ rfl]
      rfl
    rw [step_of_decodeNext_ok hrun hdecode, State.advance, heip]
    rfl
  · have hwindow : s.fetchWindow = 0xB9 :: s.mem.readBytes 0xFFFFFFFE 2 := by
      rw [fetchWindow_of_top hsize (k := 3) (by decide) (by rw [heip]; rfl), heip, ← hop]
      rfl
    have hdecode : s.decodeNext = .error (.endOfStream 1 4) := by
      rw [State.decodeNext, hwindow, decodeFrom_cons (h := .movR32Imm32 .ecx) rfl]
      rfl
    have hstop := reject_endOfStream s 1 4
    rw [heip] at hstop
    exact ⟨_, step_of_decodeNext_error hrun hdecode, hstop⟩

/-- Settles O12: the window holds the first bytes of the encoding, fewer than all, and nothing follows past a wrap. -/
theorem missingBytesAreEndOfStream : Obligations.MissingBytesAreEndOfStream := by
  intro s i k hrun hi hk hsize hend hbytes
  have hmax := length_le_maxLength i
  have hlen := length_encode i
  have hwindow : s.fetchWindow = (encode i).take k := by
    apply List.ext_getElem
    · rw [fetchWindow_length, List.length_take]
      omega
    · intro j h1 h2
      rw [List.length_take] at h2
      rw [fetchWindow_getElem, List.getElem_take, hbytes j (by omega) (by omega)]
  have hwrap : s.wrapWindow = [] := if_neg (by omega)
  obtain ⟨offset, n, hd⟩ := decode_take_encode hi hk
  have hnext : s.decodeNext = .error (.endOfStream offset n) := by
    rw [State.decodeNext, hwindow, hwrap]
    exact hd
  exact ⟨_, _, step_of_decodeNext_error hrun hnext, reject_endOfStream s offset n, rfl⟩

end Sys2Proof.Proofs.MemoryRules
end

section
/-! PROOF. The statements of 30_encoding.md: decoding and encoding, the ModRM operand, and the stops that an
instruction's bytes give. -/

namespace Sys2Proof.Proofs.EncodingRules

open Sys2Proof.Machine Sys2Proof.Claims Sys2Proof.Proofs.DecoderRules Sys2Proof.Proofs.MemoryRules

/-! ### Decode inverts encode (R51, R65, R66) -/

/-- Settles O1, by the decoder's reading of each form. -/
theorem decodeInvertsEncode : Obligations.DecodeInvertsEncode :=
  fun _ rest hi => decode_encode_append rest hi

/-! ### Encode inverts decode (R50, R51, R65)

A parser that succeeds has taken the first of the bytes; how these and its answer are related is composed along the
parsers of the decoder. -/

/-- Where the parser succeeds on bytes that do not wrap, it takes the first of them, `ws`, and its answer `x` and `ws`
are related by `P`. -/
def Reads {A : Type} (f : Cursor → Except DecodeError (A × Cursor)) (P : A → List Byte → Prop) : Prop :=
  ∀ p bs x c, f ⟨p, bs, []⟩ = .ok (x, c) →
    ∃ ws rest, bs = ws ++ rest ∧ c = ⟨p + ws.length, rest, []⟩ ∧ P x ws

theorem Reads.pure {A : Type} {P : A → List Byte → Prop} {x : A} (h : P x []) : Reads (fun c => .ok (x, c)) P := by
  rintro p bs y c ⟨⟩
  exact ⟨[], bs, rfl, rfl, h⟩

theorem Reads.error {A : Type} {P : A → List Byte → Prop} (e : DecodeError) : Reads (fun _ => .error e) P := by
  rintro p bs x c ⟨⟩

theorem Reads.ite {A : Type} {P : A → List Byte → Prop} {q : Prop} [Decidable q]
    {f g : Cursor → Except DecodeError (A × Cursor)} (hf : q → Reads f P) (hg : ¬ q → Reads g P) :
    Reads (fun c => if q then f c else g c) P := by
  by_cases h : q
  · simpa only [if_pos h] using hf h
  · simpa only [if_neg h] using hg h

/-- Two parsers in a row take the bytes of both. -/
theorem Reads.bind {A B : Type} {f : Cursor → Except DecodeError (A × Cursor)}
    {g : A → Cursor → Except DecodeError (B × Cursor)} {P : B → List Byte → Prop}
    (h : Reads f fun a us => Reads (g a) fun b vs => P b (us ++ vs)) :
    Reads (fun c => do
      let (a, c') ← f c
      g a c') P := by
  intro p bs y c hc
  rcases hf : f ⟨p, bs, []⟩ with e | ⟨a, c1⟩ <;> simp only [Bind.bind, Except.bind, hf] at hc
  · cases hc
  · obtain ⟨us, rest, rfl, rfl, hg⟩ := h p bs a c1 hf
    obtain ⟨vs, rest', rfl, rfl, hP⟩ := hg _ rest y c hc
    refine ⟨us ++ vs, rest', (List.append_assoc ..).symm, ?_, hP⟩
    rw [List.length_append, Nat.add_assoc]

theorem reads_fetch8 {P : Byte → List Byte → Prop} (h : ∀ b, P b [b]) : Reads fetch8 P := by
  intro p bs b c hc
  rcases fetch8_cases ⟨p, bs, []⟩ with ⟨b', rest, hr, hf⟩ | ⟨-, hf⟩ <;> rw [hf] at hc <;> cases hc
  exact ⟨[b], rest, hr, Cursor.next_nil _ _, h b⟩

theorem reads_fetch32 {P : Word → List Byte → Prop} (h : ∀ w, P w (wordBytes w)) : Reads fetch32 P := by
  intro p bs w c hc
  rcases fetch32_cases ⟨p, bs, []⟩ with ⟨w', rest, hr, hf⟩ | ⟨-, hf⟩ <;> rw [hf] at hc <;> cases hc
  exact ⟨wordBytes w, rest, hr, (Cursor.next_nil _ _).trans (by rw [wordBytes_length]), h w⟩

theorem reads_withByte {P : Instr → List Byte → Prop} {k : Byte → Instr} (h : ∀ b, P (k b) [b]) :
    Reads (fun c => withByte c k) P :=
  Reads.bind (g := fun b c => .ok (k b, c)) (reads_fetch8 fun b => .pure (h b))

theorem reads_withWord {P : Instr → List Byte → Prop} {k : Word → Instr} (h : ∀ w, P (k w) (wordBytes w)) :
    Reads (fun c => withWord c k) P :=
  Reads.bind (g := fun w c => .ok (k w, c)) (reads_fetch32 fun w => .pure (by simpa using h w))

/-- The bytes of a ModRM record: its ModRM byte and displacement. -/
def modRMBytes (m : ModRM) : List Byte :=
  encodeRM id m.reg m.rm

theorem ofCode_eq_esp_iff (c : BitVec 3) : Reg32.ofCode c = .esp ↔ c = 4 := by
  revert c; decide

theorem ofCode_eq_ebp_iff (c : BitVec 3) : Reg32.ofCode c = .ebp ↔ c = 5 := by
  revert c; decide

/-- Which memory operands have an encoding (R58). -/
theorem wf_mem_iff {R : Type} (base : Reg32) (d : Disp) :
    RM.wf (.mem base d : RM R) = true ↔ base ≠ .esp ∧ ¬ (d = .none ∧ base = .ebp) := by
  cases base <;> cases d <;> simp [RM.wf]

theorem wf_mem_ofCode {R : Type} {c : BitVec 3} {d : Disp} (h4 : c ≠ 4) (h5 : ¬ (d = .none ∧ c = 5)) :
    RM.wf (.mem (Reg32.ofCode c) d : RM R) = true := by
  rw [wf_mem_iff, ne_eq, ofCode_eq_esp_iff, ofCode_eq_ebp_iff]
  exact ⟨h4, h5⟩

theorem modField_eq_two {x : BitVec 2} (h3 : x ≠ 3) (h0 : x ≠ 0) (h1 : x ≠ 1) : x = 2 := by
  revert x; decide

theorem modRMByte_of_modField {b : Byte} {x : BitVec 2} (h : modField b = x) :
    modRMByte x (regField b) (rmField b) = b :=
  h ▸ modRMByte_fields b

theorem modRMBytes_reg {b : Byte} (h : modField b = 3) : modRMBytes ⟨regField b, .reg (rmField b)⟩ = [b] := by
  simp only [modRMBytes, encodeRM, id, modRMByte_of_modField h]

theorem modRMBytes_mem {b : Byte} (h : modField b = 0) :
    modRMBytes ⟨regField b, .mem (Reg32.ofCode (rmField b)) .none⟩ = [b] := by
  simp only [modRMBytes, encodeRM, Reg32.code_ofCode, modRMByte_of_modField h]

theorem modRMBytes_mem_disp8 {b : Byte} (h : modField b = 1) (d : Byte) :
    modRMBytes ⟨regField b, .mem (Reg32.ofCode (rmField b)) (.disp8 d)⟩ = [b, d] := by
  simp only [modRMBytes, encodeRM, Reg32.code_ofCode, modRMByte_of_modField h]

theorem modRMBytes_mem_disp32 {b : Byte} (h : modField b = 2) (d : Word) :
    modRMBytes ⟨regField b, .mem (Reg32.ofCode (rmField b)) (.disp32 d)⟩ = b :: wordBytes d := by
  simp only [modRMBytes, encodeRM, Reg32.code_ofCode, modRMByte_of_modField h]

/-- What `Resolve` answers is a well-formed operand, and it has taken its encoding. -/
theorem reads_resolve {P : ModRM → List Byte → Prop} (h : ∀ m, m.rm.wf = true → P m (modRMBytes m)) :
    Reads resolve P := by
  refine Reads.bind (g := resolveAfter) (reads_fetch8 fun b => ?_)
  have hmem : ∀ d, ¬ (d = .none ∧ rmField b = 5) → rmField b ≠ 4 →
      P ⟨regField b, .mem (Reg32.ofCode (rmField b)) d⟩ (modRMBytes ⟨regField b, .mem (Reg32.ofCode (rmField b)) d⟩) :=
    fun d h5 h4 => h _ (wf_mem_ofCode h4 h5)
  refine .ite (fun h3 => ?_) fun h3 => .ite (fun _ => .error _) fun h4 => .ite (fun _ => .error _) fun h5 =>
    .ite (fun h0 => ?_) fun h0 => .ite (fun h1 => ?_) fun h1 => ?_
  · exact .pure (modRMBytes_reg h3 ▸ h _ rfl)
  · exact .pure (modRMBytes_mem h0 ▸ hmem .none (fun h => h5 ⟨h0, h.2⟩) h4)
  · refine Reads.bind (g := fun d c => .ok ((⟨regField b, .mem _ (.disp8 d)⟩ : ModRM), c)) ?_
    exact reads_fetch8 fun d => .pure (by simpa [modRMBytes_mem_disp8 h1] using hmem (.disp8 d) (by simp) h4)
  · refine Reads.bind (g := fun d c => .ok ((⟨regField b, .mem _ (.disp32 d)⟩ : ModRM), c)) ?_
    have h2 := modField_eq_two h3 h0 h1
    exact reads_fetch32 fun d => .pure (by simpa [modRMBytes_mem_disp32 h2] using hmem (.disp32 d) (by simp) h4)

/-- A form or group that begins with `Resolve`: its bytes are those of the ModRM record and the ones after it. -/
theorem reads_withModRM {P : Instr → List Byte → Prop} {k : ModRM → Cursor → Except DecodeError (Instr × Cursor)}
    (h : ∀ m, m.rm.wf = true → Reads (k m) fun i ws => P i (modRMBytes m ++ ws)) :
    Reads (fun c => withModRM c k) P :=
  Reads.bind (reads_resolve h)

/-- A form that ends in its ModRM record. -/
theorem reads_withModRM_ok {P : Instr → List Byte → Prop} (f : ModRM → Instr)
    (h : ∀ m, m.rm.wf = true → P (f m) (modRMBytes m)) :
    Reads (fun c => withModRM c fun m c' => .ok (f m, c')) P :=
  reads_withModRM (k := fun m c' => .ok (f m, c')) fun m hm => .pure (by simpa using h m hm)

@[simp] theorem wf_map {A B : Type} (f : A → B) (m : RM A) : (m.map f).wf = m.wf := by
  rcases m with r | ⟨base, d⟩
  · rfl
  · cases base <;> cases d <;> rfl

@[simp] theorem wf_rm32 (m : ModRM) : m.rm32.wf = m.rm.wf :=
  wf_map _ _

@[simp] theorem wf_rm8 (m : ModRM) : m.rm8.wf = m.rm.wf :=
  wf_map _ _

theorem encodeRM_map {A B : Type} (code : B → BitVec 3) (f : A → B) (g : BitVec 3) (m : RM A) :
    encodeRM code g (m.map f) = encodeRM (code ∘ f) g m := by
  rcases m with r | ⟨base, d⟩
  · rfl
  · cases d <;> rfl

@[simp] theorem encodeRM_rm32 (m : ModRM) : encodeRM Reg32.code m.reg m.rm32 = modRMBytes m := by
  rw [ModRM.rm32, encodeRM_map, show Reg32.code ∘ Reg32.ofCode = id from funext Reg32.code_ofCode, modRMBytes]

theorem encodeRM_rm32_of_reg {m : ModRM} {g : BitVec 3} (h : m.reg = g) :
    encodeRM Reg32.code g m.rm32 = modRMBytes m :=
  h ▸ encodeRM_rm32 m

@[simp] theorem encodeRM_rm8 (m : ModRM) : encodeRM Reg8.code m.reg m.rm8 = modRMBytes m := by
  rw [ModRM.rm8, encodeRM_map, show Reg8.code ∘ Reg8.ofCode = id from funext Reg8.code_ofCode, modRMBytes]

/-- The opcode byte of a handler (R53, R66). -/
def opcodeOf : Handler → Byte
  | .jmpRel32 => 0xE9
  | .jsRel8 => 0x78
  | .jzRel8 => 0x74
  | .jleRel8 => 0x7E
  | .cmpAlImm8 => 0x3C
  | .cmpR32Rm32 => 0x3B
  | .group83 => 0x83
  | .addRm32R32 => 0x01
  | .movRm32R32 => 0x89
  | .movR32Rm32 => 0x8B
  | .movR8Rm8 => 0x8A
  | .movRm32Imm32 => 0xC7
  | .movR8Imm8 r => opcodeReg 0xB0 r.code
  | .movR32Imm32 r => opcodeReg 0xB8 r.code
  | .groupFF => 0xFF
  | .incR32 r => opcodeReg 0x40 r.code
  | .pushR32 r => opcodeReg 0x50 r.code
  | .popR32 r => opcodeReg 0x58 r.code
  | .pushImm8 => 0x6A
  | .callRel32 => 0xE8
  | .ret => 0xC3
  | .leave => 0xC9
  | .groupF7 => 0xF7
  | .intImm8 => 0xCD
  | .inAlDx => 0xEC
  | .outDxAl => 0xEE

/-- The opcode map gives a handler its own opcode byte and no other: the map is injective. -/
theorem eq_opcodeOf_of_dispatch {op : Byte} {h : Handler} (hop : dispatch op = some h) : op = opcodeOf h := by
  have hall : ∀ op : Byte, ∀ h ∈ dispatch op, op = opcodeOf h := by decide
  exact hall op h hop

/-- `i` is well formed, and `ws` are the bytes of its encoding after the opcode byte of `h`. -/
def EncodedAfter (h : Handler) (i : Instr) (ws : List Byte) : Prop :=
  i.wf = true ∧ encode i = opcodeOf h :: ws

/-- Group 0x83: the slot is the `reg` field of the record. -/
theorem reads_decodeGroup83 (m : ModRM) (hm : m.rm.wf = true) :
    Reads (decodeGroup83 m) fun i ws => EncodedAfter .group83 i (modRMBytes m ++ ws) := by
  have hwf := (wf_rm32 m).trans hm
  unfold decodeGroup83
  split
  case h_1 hreg | h_2 hreg | h_3 hreg =>
    exact reads_withByte fun _ => ⟨hwf, by rw [encode, encodeRM_rm32_of_reg (BitVec.eq_of_toNat_eq hreg)]; rfl⟩
  case h_4 => exact .error _

theorem reads_decodeBody (h : Handler) : Reads (decodeBody h) (EncodedAfter h) := by
  cases h with
  | jmpRel32 | movR32Imm32 | callRel32 => exact reads_withWord fun _ => ⟨rfl, rfl⟩
  | jsRel8 | jzRel8 | jleRel8 | cmpAlImm8 | movR8Imm8 | pushImm8 | intImm8 => exact reads_withByte fun _ => ⟨rfl, rfl⟩
  | incR32 | pushR32 | popR32 | ret | leave | inAlDx | outDxAl => exact .pure ⟨rfl, rfl⟩
  | cmpR32Rm32 =>
    exact reads_withModRM_ok (fun m => .cmpR32Rm32 (Reg32.ofCode m.reg) m.rm32) fun m hm =>
      ⟨(wf_rm32 m).trans hm, by simp [encode, opcodeOf]⟩
  | addRm32R32 =>
    exact reads_withModRM_ok (fun m => .addRm32R32 m.rm32 (Reg32.ofCode m.reg)) fun m hm =>
      ⟨(wf_rm32 m).trans hm, by simp [encode, opcodeOf]⟩
  | movRm32R32 =>
    exact reads_withModRM_ok (fun m => .movRm32R32 m.rm32 (Reg32.ofCode m.reg)) fun m hm =>
      ⟨(wf_rm32 m).trans hm, by simp [encode, opcodeOf]⟩
  | movR32Rm32 =>
    exact reads_withModRM_ok (fun m => .movR32Rm32 (Reg32.ofCode m.reg) m.rm32) fun m hm =>
      ⟨(wf_rm32 m).trans hm, by simp [encode, opcodeOf]⟩
  | movR8Rm8 =>
    exact reads_withModRM_ok (fun m => .movR8Rm8 (Reg8.ofCode m.reg) m.rm8) fun m hm =>
      ⟨(wf_rm8 m).trans hm, by simp [encode, opcodeOf]⟩
  | movRm32Imm32 =>
    exact reads_withModRM (k := fun m c' => withWord c' (.movRm32Imm32 m.reg m.rm32)) fun m hm =>
      reads_withWord fun _ => ⟨(wf_rm32 m).trans hm, by simp [encode, opcodeOf]⟩
  | group83 => exact reads_withModRM reads_decodeGroup83
  | groupFF =>
    refine reads_withModRM fun m hm => .ite (fun hreg => .pure ⟨(wf_rm32 m).trans hm, ?_⟩) fun _ => .error _
    rw [encode, encodeRM_rm32_of_reg hreg, List.append_nil, opcodeOf]
  | groupF7 =>
    refine reads_withModRM fun m hm => .ite (fun hreg => .pure ⟨(wf_rm32 m).trans hm, ?_⟩) fun _ => .error _
    rw [encode, encodeRM_rm32_of_reg hreg, List.append_nil, opcodeOf]

/-- Everything a decoding that succeeds has done: the opcode byte is one of the map, and its handler's decoder has
succeeded on the bytes after it. -/
theorem decode_eq_ok {bs : List Byte} {i : Instr} {n : Nat} (h : decode bs = .ok (i, n)) :
    ∃ op rest hd c, bs = op :: rest ∧ dispatch op = some hd ∧ decodeBody hd ⟨1, rest, []⟩ = .ok (i, c) ∧ c.pos = n := by
  cases bs with
  | nil => cases h
  | cons op rest =>
    cases hop : dispatch op with
    | none => simp [decode, decodeFrom, hop, bind, Except.bind] at h
    | some hd =>
      rw [decode, decodeFrom_cons hop, Cursor.next_nil] at h
      rcases hb : decodeBody hd ⟨1, rest, []⟩ with e | ⟨j, c⟩ <;> rw [hb] at h <;> cases h
      exact ⟨op, rest, hd, c, rfl, hop, hb, rfl⟩

/-- What decodes is well formed, and the bytes begin with its encoding, which is as long as the decoder says. -/
theorem encode_append_of_decode {bs : List Byte} {i : Instr} {n : Nat} (h : decode bs = .ok (i, n)) :
    i.wf = true ∧ n = (encode i).length ∧ ∃ rest, bs = encode i ++ rest := by
  obtain ⟨op, rest, hd, c, rfl, hop, hb, rfl⟩ := decode_eq_ok h
  obtain ⟨ws, rest', rfl, rfl, hwf, hi⟩ := reads_decodeBody hd 1 rest i c hb
  rw [eq_opcodeOf_of_dispatch hop, hi]
  exact ⟨hwf, Nat.add_comm .., rest', rfl⟩

/-- Settles O2: the bytes begin with the encoding, whose length is that of its format. -/
theorem encodeInvertsDecode : Obligations.EncodeInvertsDecode := by
  intro bs i n h
  obtain ⟨hwf, rfl, rest, rfl⟩ := encode_append_of_decode h
  exact ⟨hwf, length_encode i, List.take_left⟩

theorem one_le_length (i : Instr) : 1 ≤ i.length := by
  cases i <;> simp only [Instr.length] <;> omega

/-- Settles O3, by the bounds of the formats' lengths. -/
theorem decodedLengthIsOneToTen : Obligations.DecodedLengthIsOneToTen := by
  intro bs i n h
  obtain ⟨-, rfl, -⟩ := encodeInvertsDecode bs i n h
  exact ⟨one_le_length i, length_le_maxLength i, decode_length_le h⟩

/-- Settles O4, by running the decoder. -/
theorem sampleEncodingsDecode : Obligations.SampleEncodingsDecode := by
  unfold Obligations.SampleEncodingsDecode
  decide

/-- Settles O54, by running the decoder. -/
theorem sampleEncodingsOfOtherFormsDecode : Obligations.SampleEncodingsOfOtherFormsDecode := by
  unfold Obligations.SampleEncodingsOfOtherFormsDecode
  decide

/-! ### The ModRM operand (R52, R55 to R57, R60) -/

theorem effAddr_none (s : State) (base : Reg32) : s.effAddr base .none = s.get32 base :=
  BitVec.add_zero _

theorem effAddr_disp8 (s : State) (base : Reg32) (d : Byte) :
    s.effAddr base (.disp8 d) = BitVec.ofInt 32 ((s.get32 base).toNat + d.toInt) := by
  rw [BitVec.ofInt_add, BitVec.ofInt_natCast, BitVec.ofNat_toNat, BitVec.setWidth_eq]
  rfl

theorem effAddr_disp32 (s : State) (base : Reg32) (d : Word) :
    s.effAddr base (.disp32 d) = BitVec.ofNat 32 ((s.get32 base).toNat + d.toNat) :=
  BitVec.add_def _ _

/-- Settles O52, one displacement form after the other. -/
theorem effectiveAddress : Obligations.EffectiveAddress :=
  fun s base => ⟨effAddr_none s base, effAddr_disp8 s base, effAddr_disp32 s base⟩

/-- Four bytes in address order as one word: the first is the least significant (R32). -/
theorem ofNat_leNat_four (d0 d1 d2 d3 : Byte) : BitVec.ofNat 32 (leNat [d0, d1, d2, d3]) = d3 ++ d2 ++ d1 ++ d0 := by
  have hlt := (d3 ++ d2 ++ d1 ++ d0).isLt
  apply BitVec.eq_of_toNat_eq
  simp only [toNat_append_byte] at hlt
  simp only [leNat, toNat_append_byte, BitVec.toNat_ofNat]
  omega

/-- The displacement that 0, 1 or 4 bytes give. -/
def dispOf : List Byte → Disp
  | [] => .none
  | [d] => .disp8 d
  | ds => .disp32 (BitVec.ofNat 32 (leNat ds))

theorem dispOf_four (d0 d1 d2 d3 : Byte) : dispOf [d0, d1, d2, d3] = .disp32 (d3 ++ d2 ++ d1 ++ d0) :=
  congrArg Disp.disp32 (ofNat_leNat_four d0 d1 d2 d3)

/-- The `rm` operand that a supported ModRM byte and its displacement bytes name (R56). -/
def rmOf (b : Byte) (disp : List Byte) : RM (BitVec 3) :=
  if modField b = 3 then .reg (rmField b) else .mem (Reg32.ofCode (rmField b)) (dispOf disp)

theorem unsupported_iff (b : Byte) :
    Unsupported b ↔ (modField b ≠ 3 ∧ rmField b = 4) ∨ (modField b = 0 ∧ rmField b = 5) :=
  Iff.rfl

theorem dispBytes_eq (b : Byte) : dispBytes b = if modField b = 1 then 1 else if modField b = 2 then 4 else 0 :=
  rfl

/-- The patterns of R58 are refused before any displacement byte is fetched. -/
theorem resolveAfter_of_unsupported {b : Byte} (h : Unsupported b) (c : Cursor) :
    resolveAfter b c = .error (.unsupportedAddressing b) := by
  rcases (unsupported_iff b).mp h with ⟨h3, h4⟩ | ⟨h0, h5⟩
  · rw [resolveAfter, if_neg h3, if_pos h4]
  · rw [resolveAfter, if_neg (by rw [h0]; decide), if_neg (by rw [h5]; decide), if_pos ⟨h0, h5⟩]

/-- A memory operand outside the patterns of R58: its displacement is as wide as `mod` says. -/
theorem resolveAfter_mem {b : Byte} (h : ¬ Unsupported b) (h3 : modField b ≠ 3) (c : Cursor) :
    resolveAfter b c =
      if modField b = 0 then .ok (⟨regField b, .mem (Reg32.ofCode (rmField b)) .none⟩, c)
      else if modField b = 1 then
        (fetch8 c).map fun x => (⟨regField b, .mem (Reg32.ofCode (rmField b)) (.disp8 x.1)⟩, x.2)
      else (fetch32 c).map fun x => (⟨regField b, .mem (Reg32.ofCode (rmField b)) (.disp32 x.1)⟩, x.2) := by
  obtain ⟨h4, h5⟩ := not_or.mp (mt (unsupported_iff b).mpr h)
  rw [resolveAfter, if_neg h3, if_neg fun h => h4 ⟨h3, h⟩, if_neg h5]
  cases fetch8 c <;> cases fetch32 c <;> rfl

/-- A supported ModRM byte takes its displacement bytes, whatever follows them. -/
theorem resolveAfter_of_supported {b : Byte} {disp : List Byte} (h : ¬ Unsupported b)
    (hd : disp.length = dispBytes b) (p : Nat) (rest wrapped : List Byte) :
    resolveAfter b (Cursor.next p (disp ++ rest) wrapped) =
      .ok (⟨regField b, rmOf b disp⟩, Cursor.next (p + disp.length) rest wrapped) := by
  rw [dispBytes_eq] at hd
  by_cases h3 : modField b = 3
  · obtain rfl : disp = [] := List.eq_nil_of_length_eq_zero (by simpa [h3] using hd)
    rw [resolveAfter, if_pos h3, rmOf, if_pos h3]
    rfl
  rw [resolveAfter_mem h h3, rmOf, if_neg h3]
  by_cases h0 : modField b = 0
  · obtain rfl : disp = [] := List.eq_nil_of_length_eq_zero (by simpa [h0] using hd)
    rw [if_pos h0]
    rfl
  by_cases h1 : modField b = 1
  · obtain ⟨d, rfl⟩ : ∃ d, disp = [d] := List.length_eq_one_iff.mp (by simpa [h1] using hd)
    rw [if_neg h0, if_pos h1, List.singleton_append, Cursor.next, fetch8_cons_next]
    rfl
  · have h4 : disp.length = 4 := by simpa [modField_eq_two h3 h0 h1] using hd
    obtain ⟨d0, d1, d2, d3, rfl⟩ := List.length_eq_four.mp h4
    rw [if_neg h0, if_neg h1, List.cons_append, Cursor.next, ← List.cons_append, fetch32_append_next _ _ _ _ h4]
    rfl

theorem resolve_cons (p : Nat) (b : Byte) (bs wrapped : List Byte) :
    resolve ⟨p, b :: bs, wrapped⟩ = resolveAfter b (Cursor.next (p + 1) bs wrapped) := by
  rw [resolve, fetch8_cons_next]
  rfl

theorem resolve_of_supported {b : Byte} {disp : List Byte} (h : ¬ Unsupported b) (hd : disp.length = dispBytes b)
    (p : Nat) (rest wrapped : List Byte) :
    resolve ⟨p, b :: (disp ++ rest), wrapped⟩ =
      .ok (⟨regField b, rmOf b disp⟩, Cursor.next (p + 1 + disp.length) rest wrapped) := by
  rw [resolve_cons, resolveAfter_of_supported h hd]

/-- Settles O53: the record is that of the ModRM byte's fields, its address the base plus the displacement. -/
theorem modRMByteNamesItsOperand : Obligations.ModRMByteNamesItsOperand := by
  intro s b disp rest wrapped h hd mod rm base
  refine ⟨⟨regField b, rmOf b disp⟩, _, resolve_of_supported h hd 0 rest wrapped, ?_, rfl, fun h3 => ?_, fun h3 => ?_⟩
  · rw [cursorNext_pos]
  · have hrm : rmOf b disp = .reg rm := if_pos h3
    rw [hrm]
    exact ⟨rfl, rfl⟩
  · have hrm : rmOf b disp = .mem (Reg32.ofCode rm) (dispOf disp) := if_neg h3
    rw [hrm]
    refine ⟨s.effAddr (Reg32.ofCode rm) (dispOf disp), rfl, rfl, fun h0 => ?_, ?_, ?_⟩
    · have h0 : modField b = 0 := h0
      obtain rfl : disp = [] := List.eq_nil_of_length_eq_zero (by simpa [dispBytes_eq, h0] using hd)
      exact effAddr_none _ _
    · rintro d rfl
      exact effAddr_disp8 _ _ _
    · rintro d0 d1 d2 d3 rfl
      rw [dispOf_four]
      exact effAddr_disp32 _ _ _

/-! ### The stops of a byte sequence in memory (R54, R58, R64, R68, R164, R165) -/

/-- Bytes in memory at `eip` are where the decoder begins to read (R37, R38). -/
theorem fetchWindow_of_bytesAtEip {s : State} {bs : List Byte} (h : BytesAtEip s bs) (hlen : bs.length ≤ maxLength) :
    ∃ r, s.fetchWindow = bs ++ r := by
  obtain ⟨hfit, hbytes⟩ := h
  obtain ⟨k, hk⟩ := Nat.exists_eq_add_of_le (show bs.length ≤ min maxLength (s.cfg.memSize - s.eip.toNat) by omega)
  have hread : s.mem.readBytes s.eip.toNat bs.length = bs := by
    apply List.ext_getElem (Memory.readBytes_length _ _ _)
    intro j _ hj
    rw [Memory.readBytes_getElem]
    exact hbytes j hj
  rw [State.fetchWindow, hk, Memory.readBytes_add, hread]
  exact ⟨_, rfl⟩

/-- A rejection of the bytes at `eip` that wants no more of them is the rejection of the step. -/
theorem decodeNext_of_rejected {s : State} {bs : List Byte} {e : DecodeError} (h : BytesAtEip s bs)
    (hlen : bs.length ≤ maxLength) (hd : decode bs = .error e) (he : ¬ e.wantsBytes) : s.decodeNext = .error e := by
  obtain ⟨r, hr⟩ := fetchWindow_of_bytesAtEip h hlen
  have hext := decodeFrom_extends bs r s.wrapWindow
  rw [hd] at hext
  rw [State.decodeNext, hr]
  exact hext.resolve_left he

/-- Whatever rejection stops the core, before or inside a handler, the trace, the input and the parameters are kept. -/
theorem reject_stops (s : State) (e : DecodeError) : StopsInHandler s (s.reject e) (decodeStop s.eip e) := by
  unfold State.reject
  split <;> exact ⟨rfl, rfl, rfl, rfl⟩

theorem step_of_rejected {s : State} {bs : List Byte} {e : DecodeError} (hrun : s.status = .running)
    (h : BytesAtEip s bs) (hlen : bs.length ≤ maxLength) (hd : decode bs = .error e) (he : ¬ e.wantsBytes) :
    ∃ t, step s = .next t ∧ StopsInHandler s t (decodeStop s.eip e) :=
  ⟨_, step_of_decodeNext_error hrun (decodeNext_of_rejected h hlen hd he), reject_stops s e⟩

/-- The opcode map is defined on the 61 opcode bytes alone (R66, R68). -/
theorem dispatch_eq_none_iff (op : Byte) : dispatch op = none ↔ op.toNat ∉ opcodeBytes := by
  revert op; decide

theorem decode_of_unknown {op : Byte} (hop : dispatch op = none) (bs : List Byte) :
    decode (op :: bs) = .error (.unknownOpcode op) := by
  simp [decode, decodeFrom, hop, bind, Except.bind]

/-- Settles O9: the opcode byte alone is rejected, at dispatch. -/
theorem unknownOpcodeStopsPrecisely : Obligations.UnknownOpcodeStopsPrecisely := by
  intro s hrun hin hop
  have hbytes : BytesAtEip s [s.byteAt s.eip.toNat] := ⟨hin, fun k hk => by simp [Nat.lt_one_iff.mp hk]⟩
  have hdec := decode_of_unknown ((dispatch_eq_none_iff _).mpr hop) []
  rw [step_of_decodeNext_error hrun (decodeNext_of_rejected hbytes (by simp [maxLength]) hdec (by rintro ⟨_, _, ⟨⟩⟩))]
  rfl

theorem withModRM_of_resolve_error {c : Cursor} {e : DecodeError} (hr : resolve c = .error e)
    (k : ModRM → Cursor → Except DecodeError (Instr × Cursor)) : withModRM c k = .error e := by
  rw [withModRM, hr]
  rfl

/-- The handlers of the nine ModRM opcodes begin with `Resolve` (R54), so its rejection is theirs. -/
theorem decodeBody_of_modRMOpcode {op : Byte} (hop : op.toNat ∈ modRMOpcodes) :
    ∃ h, dispatch op = some h ∧ ∀ c e, resolve c = .error e → decodeBody h c = .error e := by
  rw [show op = BitVec.ofNat 8 op.toNat by simp]
  generalize op.toNat = n at hop
  fin_cases hop <;> exact ⟨_, rfl, fun _ _ hr => by rw [decodeBody, withModRM_of_resolve_error hr]⟩

theorem decode_of_resolve_error {op : Byte} {bs : List Byte} {e : DecodeError} (hop : op.toNat ∈ modRMOpcodes)
    (hr : resolve ⟨1, bs, []⟩ = .error e) : decode (op :: bs) = .error e := by
  obtain ⟨h, hd, hbody⟩ := decodeBody_of_modRMOpcode hop
  rw [decode, decodeFrom_cons hd, Cursor.next_nil, hbody _ e hr]
  rfl

/-- Settles O10: the opcode and the ModRM byte alone are rejected. -/
theorem unsupportedAddressingModeStops : Obligations.UnsupportedAddressingModeStops := by
  intro s op b hrun hop hb hbytes
  have hr : resolve ⟨1, [b], []⟩ = .error (.unsupportedAddressing b) := by
    rw [resolve_cons, resolveAfter_of_unsupported hb]
  exact step_of_rejected hrun hbytes (by simp [maxLength]) (decode_of_resolve_error hop hr) (by rintro ⟨_, _, ⟨⟩⟩)

theorem decodeGroup83_of_unmapped {m : ModRM} (h0 : m.reg ≠ 0) (h5 : m.reg ≠ 5) (h7 : m.reg ≠ 7) (c : Cursor) :
    decodeGroup83 m c = .error (.unmappedGroup 0x83 m.reg) := by
  unfold decodeGroup83
  split
  case h_1 h => exact absurd (BitVec.eq_of_toNat_eq h) h0
  case h_2 h => exact absurd (BitVec.eq_of_toNat_eq h) h5
  case h_3 h => exact absurd (BitVec.eq_of_toNat_eq h) h7
  case h_4 => rfl

/-- An unmapped slot belongs to a group, which rejects it whatever the operand and the bytes that follow (R64). -/
theorem decodeBody_of_unmappedSlot {op b : Byte} (hslot : UnmappedSlot op b) :
    ∃ h k, dispatch op = some h ∧ (∀ c, decodeBody h c = withModRM c k) ∧
      ∀ rm c, k ⟨regField b, rm⟩ c = .error (.unmappedGroup op (regField b)) := by
  rcases hslot with ⟨rfl, h0, h5, h7⟩ | ⟨rfl, h0⟩ | ⟨rfl, h3⟩
  · exact ⟨.group83, decodeGroup83, rfl, fun _ => rfl, fun _ => decodeGroup83_of_unmapped h0 h5 h7⟩
  · exact ⟨.groupFF, decodeGroupFF, rfl, fun _ => rfl, fun _ _ => if_neg h0⟩
  · exact ⟨.groupF7, decodeGroupF7, rfl, fun _ => rfl, fun _ _ => if_neg h3⟩

/-- The slot is rejected once the displacement is taken, with no immediate there. -/
theorem decode_of_unmappedSlot {op b : Byte} {disp : List Byte} (hslot : UnmappedSlot op b) (hb : ¬ Unsupported b)
    (hdisp : disp.length = dispBytes b) : decode (op :: b :: disp) = .error (.unmappedGroup op (regField b)) := by
  obtain ⟨h, k, hop, hbody, hk⟩ := decodeBody_of_unmappedSlot hslot
  have hr := resolve_of_supported hb hdisp 1 [] []
  rw [List.append_nil] at hr
  rw [decode, decodeFrom_cons hop, Cursor.next_nil, hbody, withModRM, hr]
  simp only [bind, Except.bind, hk]
  rfl

theorem dispBytes_le (b : Byte) : dispBytes b ≤ 4 := by
  unfold dispBytes
  split_ifs <;> decide

/-- Settles O11: the opcode, the ModRM byte and the displacement alone are rejected. -/
theorem unmappedGroupSlotStops : Obligations.UnmappedGroupSlotStops := by
  intro s op b disp hrun hslot hb hdisp hbytes
  have hlen : (op :: b :: disp).length ≤ maxLength := by
    have hle := dispBytes_le b
    simp only [List.length_cons, maxLength]
    omega
  exact step_of_rejected hrun hbytes hlen (decode_of_unmappedSlot hslot hb hdisp) (by rintro ⟨_, _, ⟨⟩⟩)

end Sys2Proof.Proofs.EncodingRules
end

section
/-! PROOF. The statements of 40_core_step_and_flag_alu.md: the step of a running core, and the flags of a
subtraction. -/

namespace Sys2Proof.Proofs.StepRules

open Sys2Proof.Machine Sys2Proof.Claims Sys2Proof.Proofs.DecoderRules Sys2Proof.Proofs.MemoryRules
  Sys2Proof.Proofs.EncodingRules

/-! ### The step (R81, R82) -/

/-- Settles O5: `State.advance` is the only change around `exec`. -/
theorem stepRunsTheDecodedInstruction : Obligations.StepRunsTheDecodedInstruction :=
  fun _ _ _ hrun h => step_of_decodeNext_ok hrun h

/-- Bytes at `eip` that decode are decoded there, whatever the windows hold after them. -/
theorem decodeNext_of_decoded {s : State} {bs : List Byte} {x : Instr × Nat} (h : BytesAtEip s bs)
    (hlen : bs.length ≤ maxLength) (hd : decode bs = .ok x) : s.decodeNext = .ok x := by
  obtain ⟨r, hr⟩ := fetchWindow_of_bytesAtEip h hlen
  have hext := decodeFrom_extends bs r s.wrapWindow
  rw [hd] at hext
  rw [State.decodeNext, hr]
  exact hext

/-- Settles O6: the encoding fits the fetch window and decodes to its instruction. -/
theorem stepRunsTheInstructionAtEip : Obligations.StepRunsTheInstructionAtEip := by
  intro s i hrun hi hbytes
  have hlen : (encode i).length ≤ maxLength := by
    rw [length_encode]
    exact length_le_maxLength i
  have hdecode : decode (encode i) = .ok (i, i.length) := by
    simpa using decode_encode_append [] hi
  exact stepRunsTheDecodedInstruction s i i.length hrun (decodeNext_of_decoded hbytes hlen hdecode)

end Sys2Proof.Proofs.StepRules

namespace Sys2Proof.Proofs.FlagRules

open Sys2Proof.Machine

/-! ### The flag ALU (R83 to R85)

The laws of `flagSub` give its flags by the difference `a - b` of the words. R83 takes that difference from the unbounded
integers; R84 reads the overflow flag as signed overflow of the subtraction. -/

theorem flagSub_zf_iff {W : Nat} (a b : BitVec W) : (flagSub a b).zf = true ↔ a = b := by
  rw [flagSub_zf, decide_eq_true_iff]
  exact sub_eq_zero

theorem flagSub_cf_iff {W : Nat} (a b : BitVec W) : (flagSub a b).cf = true ↔ a.toNat < b.toNat := by
  rw [flagSub_cf, decide_eq_true_iff]

theorem flagSub_of_iff_msb {W : Nat} (a b : BitVec W) :
    (flagSub a b).of = true ↔ a.msb ≠ b.msb ∧ (a - b).msb ≠ a.msb := by
  rw [flagSub_of, Bool.and_eq_true, bne_iff_ne, bne_iff_ne]

theorem testBit_toNat_last {n : Nat} (a : BitVec (n + 1)) : a.toNat.testBit n = a.msb :=
  (BitVec.msb_eq_getLsbD_last a).symm

/-- `r` of R83 is the truncated difference. -/
theorem toNat_sub_eq_emod {W : Nat} (a b : BitVec W) :
    (((a.toNat : Int) - (b.toNat : Int)) % (2 ^ W : Int)).toNat = (a - b).toNat := by
  rw [← truncatedDifference_eq, truncatedDifference, fullDifference, BitVec.toNat_ofInt]
  norm_cast

/-- Settles O28: `r` is the value of the word `a - b`, and bit W-1 of a value is the top bit of its word. -/
theorem flagSubFormulas : Obligations.FlagSubFormulas := by
  intro n a b full r
  have hr : r = (a - b).toNat := toNat_sub_eq_emod a b
  have hzero : r = 0 ↔ a = b := by
    rw [hr, ← sub_eq_zero (a := a), ← BitVec.toNat_inj]
    rfl
  rw [hzero, hr, testBit_toNat_last, testBit_toNat_last, testBit_toNat_last]
  exact ⟨flagSub_zf_iff a b, flagSub_sf a b, flagSub_cf_iff a b, flagSub_of_iff_msb a b⟩

/-- The overflow flag is the signed overflow of the subtraction. -/
theorem flagSub_of_eq_ssubOverflow {W : Nat} (a b : BitVec W) : (flagSub a b).of = BitVec.ssubOverflow a b := by
  rw [flagSub_of, BitVec.ssubOverflow_eq]
  cases a.msb <;> cases b.msb <;> simp

theorem flagSub_of_iff {n : Nat} (a b : BitVec (n + 1)) :
    (flagSub a b).of = true ↔ a.toInt - b.toInt < -(2 ^ n : Int) ∨ (2 ^ n : Int) ≤ a.toInt - b.toInt := by
  rw [flagSub_of_eq_ssubOverflow, BitVec.ssubOverflow, Bool.or_eq_true, decide_eq_true_iff, decide_eq_true_iff, or_comm]
  rfl

/-- Of two words with different signs the negative one is the less. -/
theorem toInt_lt_iff_of_msb_ne {W : Nat} {a b : BitVec W} (h : a.msb ≠ b.msb) :
    a.toInt < b.toInt ↔ a.msb = true := by
  rw [BitVec.msb_eq_toInt, BitVec.msb_eq_toInt, ne_eq, decide_eq_decide] at h
  rw [BitVec.msb_eq_toInt, decide_eq_true_iff]
  omega

/-- On overflow the operands differ in sign, and the sign flag is not that of `a`; else it is that of the signed
difference. -/
theorem flagSub_sf_ne_of_iff {W : Nat} (a b : BitVec W) :
    (flagSub a b).sf ≠ (flagSub a b).of ↔ a.toInt < b.toInt := by
  rw [flagSub_sf]
  by_cases hof : (flagSub a b).of = true
  · obtain ⟨hab, hsf⟩ := (flagSub_of_iff_msb a b).mp hof
    rw [hof, toInt_lt_iff_of_msb_ne hab, Bool.eq_not_of_ne hsf]
    simp
  · have hfit := hof
    rw [flagSub_of_eq_ssubOverflow] at hfit
    rw [Bool.eq_false_of_not_eq_true hof, BitVec.msb_eq_toInt, BitVec.toInt_sub_of_not_ssubOverflow hfit]
    simp

theorem flagSub_condLE_iff {W : Nat} (a b : BitVec W) : (flagSub a b).condLE = true ↔ a.toInt ≤ b.toInt := by
  rw [Flags.condLE, Bool.or_eq_true, bne_iff_ne, flagSub_zf_iff, flagSub_sf_ne_of_iff, ← BitVec.toInt_inj,
    le_iff_eq_or_lt]

theorem flagSub_zero {W : Nat} (a : BitVec W) : flagSub a 0#W = ⟨false, decide (a = 0#W), a.msb, false⟩ := by
  simp [flagSub, truncatedDifference_eq]

/-- Settles O29, by the reading of each flag: equal operands borrow nothing. -/
theorem flagSubProperties : Obligations.FlagSubProperties := by
  intro n a b
  have hnot : ¬ ((flagSub a b).zf = true ∧ (flagSub a b).cf = true) := by
    rintro ⟨hzf, hcf⟩
    rw [flagSub_cf_iff, (flagSub_zf_iff a b).mp hzf] at hcf
    exact lt_irrefl _ hcf
  exact ⟨flagSub_zf_iff a b, flagSub_cf_iff a b, hnot, flagSub_sf_ne_of_iff a b, flagSub_condLE_iff a b,
    flagSub_of_iff a b, flagSub_zero a⟩

end Sys2Proof.Proofs.FlagRules
end

section
/-! PROOF. The statements of 41_jumps.md: the four relative jumps, their step, and `jle` after a compare. -/

namespace Sys2Proof.Proofs.JumpRules

open Sys2Proof.Machine Sys2Proof.Claims Sys2Proof.Proofs.MemoryRules Sys2Proof.Proofs.StepRules
  Sys2Proof.Proofs.FlagRules

/-! ### The jumps (R90 to R93) -/

/-- A conditional jump moves `eip` alone, by its offset when its condition, as a statement words it, holds. -/
theorem branch_eq_of_iff {taken : Bool} {p : Prop} [Decidable p] (h : taken = true ↔ p) (s : State) (rel : Byte) :
    s.branch taken rel = { s with eip := if p then s.eip + rel.signExtend 32 else s.eip } := by
  by_cases hp : p
  · rw [if_pos hp, State.branch, if_pos (h.mpr hp)]
    rfl
  · rw [if_neg hp, State.branch, if_neg (mt h.mp hp)]

theorem condLE_iff (f : Flags) : f.condLE = true ↔ f.zf = true ∨ f.sf ≠ f.of := by
  rw [Flags.condLE, Bool.or_eq_true, bne_iff_ne]

/-- `jle` by any wording of its condition on the flags. -/
theorem exec_jleRel8_of_iff {s : State} {p : Prop} [Decidable p] (h : s.flags.condLE = true ↔ p) (rel : Byte) :
    exec (.jleRel8 rel) s = .next { s with eip := if p then s.eip + rel.signExtend 32 else s.eip } :=
  congrArg Host.Outcome.next (branch_eq_of_iff h s rel)

/-- Settles O31: `jmp` is its definition, and the three others are one branch under the conditions of R85. -/
theorem jumpResults : Obligations.JumpResults := by
  refine ⟨fun s rel => rfl, fun s rel => ⟨?_, ?_, ?_⟩⟩
  · exact congrArg Host.Outcome.next (branch_eq_of_iff Iff.rfl s rel)
  · exact congrArg Host.Outcome.next (branch_eq_of_iff Iff.rfl s rel)
  · exact exec_jleRel8_of_iff (condLE_iff s.flags) rel

/-! ### The step of a conditional jump (R94) -/

/-- The step of an instruction of two bytes that branches when `p`: the offset comes on top of the length. -/
theorem step_of_branch {s : State} {i : Instr} {p : Prop} [Decidable p] {rel : Byte} (hrun : s.status = .running)
    (hi : i.wf = true) (hlen : i.length = 2) (hbytes : BytesAtEip s (encode i))
    (hexec : exec i { s with eip := s.eip + 2 } =
      .next { s with eip := if p then s.eip + 2 + rel.signExtend 32 else s.eip + 2 }) :
    step s = .next { s with eip := s.eip + 2 + if p then rel.signExtend 32 else 0 } := by
  have hstep := stepRunsTheInstructionAtEip s i hrun hi hbytes
  rw [hlen] at hstep
  rw [hstep, add_ite, add_zero]
  exact hexec

/-- Settles O32: the bytes are the encoding of the jump, which branches from `eip + 2`. -/
theorem conditionalJumpStep : Obligations.ConditionalJumpStep := by
  intro s rel hrun
  obtain ⟨hjs, hjz, hjle⟩ := jumpResults.2 { s with eip := s.eip + 2 } rel
  exact ⟨fun h => step_of_branch (i := .jsRel8 rel) hrun rfl rfl h hjs,
    fun h => step_of_branch (i := .jzRel8 rel) hrun rfl rfl h hjz,
    fun h => step_of_branch (i := .jleRel8 rel) hrun rfl rfl h hjle⟩

/-! ### `jle` after `cmp` (R93, R101) -/

/-- An operand that can be accessed reads as its value (R59). -/
theorem getRM32_of_accessible {s : State} {m : RM Reg32} (h : Accessible32 s m) :
    s.getRM32 m = .ok (operand32 s m) := by
  cases m with
  | reg r => rfl
  | mem base d => rw [operand32, wordAt_eq_word, State.getRM32, memRead32_of_fits h]

/-- A compare with an operand that can be accessed completes, with the flags of the subtraction (R101). -/
theorem exec_cmpR32Rm32_of_accessible {s : State} {m : RM Reg32} (h : Accessible32 s m) (r : Reg32) :
    exec (.cmpR32Rm32 r m) s = .next (s.setFlags (flagSub (s.get32 r) (operand32 s m))) := by
  rw [exec, execCmpR32Rm32, getRM32_of_accessible h]
  rfl

/-- Settles O30: the flags that `jle` reads are those of the subtraction, on which LE is the signed order (R84). -/
theorem jleAfterCmpIsSignedLessOrEqual : Obligations.JleAfterCmpIsSignedLessOrEqual := by
  intro s t r m rel hm h
  rw [exec_cmpR32Rm32_of_accessible hm r] at h
  obtain rfl : s.setFlags (flagSub (s.get32 r) (operand32 s m)) = t := by injection h
  exact exec_jleRel8_of_iff (flagSub_condLE_iff (s.get32 r) (operand32 s m)) rel

end Sys2Proof.Proofs.JumpRules
end

section
/-! PROOF. The statement of 42_compare.md: the three compares. -/

namespace Sys2Proof.Proofs.CompareRules

open Sys2Proof.Machine Sys2Proof.Claims Sys2Proof.Proofs.StateRules Sys2Proof.Proofs.JumpRules

theorem get8_al (s : State) : s.get8 .al = (s.get32 .eax).extractLsb' 0 8 :=
  viewGet_eq_extractLsb' false (s.get32 .eax)

/-- `cmp AL, imm8` completes in every state; `CMP_AL_WIDTH` chooses the flags alone (R100, D16). -/
theorem exec_cmpAlImm8_of_width {s : State} {w : CmpAlWidth} (h : s.cfg.cmpAlWidth = w) (imm : Byte) :
    exec (.cmpAlImm8 imm) s = .next (s.setFlags (flagsCmpAl w ((s.get32 .eax).extractLsb' 0 8) imm)) := by
  rw [exec, execCmpAlImm8, h, get8_al]

/-- A compare of an operand that can be accessed with a byte completes, the byte sign-extended (R102, D17). -/
theorem exec_cmpRm32Imm8_of_accessible {s : State} {m : RM Reg32} (h : Accessible32 s m) (imm : Byte) :
    exec (.cmpRm32Imm8 m imm) s = .next (s.setFlags (flagSub (operand32 s m) (imm.signExtend 32))) := by
  rw [exec, execCmpRm32Imm8, getRM32_of_accessible h]
  rfl

/-- Settles O33, by the rule of each compare. -/
theorem compareResults : Obligations.CompareResults :=
  ⟨fun _ imm h => exec_cmpAlImm8_of_width h imm, fun _ imm h => exec_cmpAlImm8_of_width h imm,
    fun _ r _ h => exec_cmpR32Rm32_of_accessible h r, fun _ _ imm h => exec_cmpRm32Imm8_of_accessible h imm⟩

end Sys2Proof.Proofs.CompareRules
end

section
/-! PROOF. The statements of 43_arithmetic.md, with `inc` and `neg`: the arithmetic into a register or memory operand,
and the stop of a subtraction that underflows. -/

namespace Sys2Proof.Proofs.ArithmeticRules

open Sys2Proof.Machine Sys2Proof.Claims Sys2Proof.Proofs.StateRules Sys2Proof.Proofs.MemoryRules
  Sys2Proof.Proofs.JumpRules

/-! ### The operand written (R59) -/

/-- Storing a word changes its four bytes and nothing else (R34). -/
theorem withBytes_wordBytes_stores {s : State} (hs : s.Inv) (a : Nat) (v : Word) :
    Stores s (s.withBytes a (wordBytes v)) a v := by
  refine ⟨rfl, ?_, fun x hx => ?_⟩
  · rw [wordAt_eq_word, word_withBytes_wordBytes hs.wf]
  · exact Memory.read_writeBytes_outside _ (by rwa [wordBytes_length])

/-- A write to an operand that can be accessed succeeds, and writes that operand alone (R59). -/
theorem setRM32_writesOperand {s : State} {m : RM Reg32} (hs : s.Inv) (hm : Accessible32 s m) (v : Word) :
    ∃ t, s.setRM32 m v = .ok t ∧ WritesOperand s t m v := by
  cases m with
  | reg r => exact ⟨_, rfl, rfl⟩
  | mem base d => exact ⟨_, memWrite32_of_fits v hm, withBytes_wordBytes_stores hs _ v⟩

/-- Flags written after the operand are as if written before it: no operand's address or value rests on them. -/
theorem writesOperand_setFlags {s t : State} {m : RM Reg32} {v : Word} (h : WritesOperand s t m v) (f : Flags) :
    WritesOperand (s.setFlags f) (t.setFlags f) m v := by
  cases m with
  | reg r => exact congrArg (State.setFlags · f) h
  | mem base d =>
    obtain ⟨hrest, hword, hbytes⟩ := h
    exact ⟨congrArg (State.setFlags · f) hrest, hword, hbytes⟩

/-- The flags of a subtraction, whether they are written or not, leave the operand written (R112, D14). -/
theorem writesOperand_subFlags {s t : State} {m : RM Reg32} {v : Word} (h : WritesOperand s t m v)
    (hc : t.cfg = s.cfg) (a imm : Word) : WritesOperand (s.subFlags a imm) (t.subFlags a imm) m v := by
  rw [State.subFlags, State.subFlags, hc]
  split
  · exact writesOperand_setFlags h _
  · exact h

/-- A read-modify-write of an operand that can be accessed completes, and writes that operand alone. -/
theorem finish_modifyRM32_writesOperand {s : State} {m : RM Reg32} {f : Word → Word} {v : Word} (hs : s.Inv)
    (hm : Accessible32 s m) (hv : v = f (operand32 s m)) :
    ∃ t, s.finish (s.modifyRM32 m f) = .next t ∧ WritesOperand s t m v := by
  obtain ⟨t, ht, hw⟩ := setRM32_writesOperand hs hm v
  refine ⟨t, ?_, hw⟩
  rw [State.modifyRM32, getRM32_of_accessible hm]
  exact congrArg s.finish (hv ▸ ht)

/-! ### Arithmetic modulo 2^32 (R39, R110 to R112, R145) -/

theorem ofNat_toNat_add (a b : Word) : BitVec.ofNat 32 (a.toNat + b.toNat) = a + b :=
  (BitVec.add_def a b).symm

/-- A byte sign-extended adds its signed value (R39, R111). -/
theorem ofInt_toNat_add_toInt (a : Word) (imm : Byte) : BitVec.ofInt 32 (a.toNat + imm.toInt) = a + sext8 imm := by
  rw [BitVec.ofInt_add, BitVec.ofInt_natCast, BitVec.ofNat_toNat, BitVec.setWidth_eq]
  rfl

/-- A byte sign-extended takes off its signed value (R39, R112). -/
theorem ofInt_toNat_sub_toInt (a : Word) (imm : Byte) : BitVec.ofInt 32 (a.toNat - imm.toInt) = a - sext8 imm := by
  rw [sub_eq_add_neg, BitVec.ofInt_add, BitVec.ofInt_neg, BitVec.sub_eq_add_neg, BitVec.ofInt_natCast, BitVec.ofNat_toNat, BitVec.setWidth_eq]
  rfl

/-- The negation of the signed value is 0 minus the operand, for the most negative value too (R145, D15). -/
theorem ofInt_neg_toInt (a : Word) : BitVec.ofInt 32 (-a.toInt) = 0 - a := by
  rw [BitVec.ofInt_neg, BitVec.ofInt_toInt, ← BitVec.zero_sub]
  rfl

/-- Settles O34: each form is a read-modify-write of its operand with its own sum. -/
theorem wrappingArithmeticResults : Obligations.WrappingArithmeticResults := by
  intro s hs
  refine ⟨fun m r hm => ?_, fun m imm hm => ?_, fun m hm => ?_, fun r => ?_, fun m hm => ?_⟩
  · exact finish_modifyRM32_writesOperand hs hm (ofNat_toNat_add _ _)
  · exact finish_modifyRM32_writesOperand hs hm (ofInt_toNat_add_toInt _ _)
  · exact finish_modifyRM32_writesOperand hs hm (ofNat_toNat_add _ 1)
  · exact congrArg (fun v => Host.Outcome.next (s.set32 r v)) (ofNat_toNat_add _ 1).symm
  · exact finish_modifyRM32_writesOperand hs hm (ofInt_neg_toInt _)

/-! ### Subtraction (R112) -/

/-- When a subtraction stops the core: under `fault`, and with the operand the less, both unsigned (D13). -/
theorem subUnderflows_iff (u : SubUnderflow) (a imm : Word) :
    subUnderflows u a imm = true ↔ u = .fault ∧ a.toNat < imm.toNat := by
  cases u <;> simp [subUnderflows]

/-- `sub rm32, imm8` of an operand that can be accessed: the check, or the difference written and then the flags. -/
theorem exec_subRm32Imm8_of_accessible {s : State} {m : RM Reg32} (hm : Accessible32 s m) (imm : Byte) :
    exec (.subRm32Imm8 m imm) s = s.finish
      (if subUnderflows s.cfg.subUnderflow (operand32 s m) (sext8 imm) then
        .error (.arithmeticUnderflow (operand32 s m) (sext8 imm))
      else (s.setRM32 m (operand32 s m - sext8 imm)).map (·.subFlags (operand32 s m) (sext8 imm))) := by
  rw [exec, execSubRm32Imm8, getRM32_of_accessible hm]
  rfl

/-- Settles O35: the check passes, so the difference is written and then the flags of the subtraction. -/
theorem subResult : Obligations.SubResult := by
  intro s m imm hs hm hno
  have hpass : ¬ subUnderflows s.cfg.subUnderflow (operand32 s m) (sext8 imm) = true := by
    rw [subUnderflows_iff]
    rintro ⟨hfault, hlt⟩
    rcases hno with hwrap | hle
    · rw [hfault] at hwrap
      cases hwrap
    · exact absurd hlt (Nat.not_lt.mpr hle)
  obtain ⟨t, ht, hw⟩ := setRM32_writesOperand hs hm (operand32 s m - sext8 imm)
  have hflags := writesOperand_subFlags hw (setRM32_moves ht).cfg (operand32 s m) (sext8 imm)
  rw [← ofInt_toNat_sub_toInt] at hflags
  refine ⟨t.subFlags (operand32 s m) (sext8 imm), ?_, hflags⟩
  rw [exec_subRm32Imm8_of_accessible hm, if_neg hpass, ht]
  rfl

/-- Settles O36: the check stands before the store, and its error ends the handler. -/
theorem subUnderflowStops : Obligations.SubUnderflowStops := by
  intro s m imm hm hfault hlt
  have hstop : subUnderflows s.cfg.subUnderflow (operand32 s m) (sext8 imm) = true :=
    (subUnderflows_iff _ _ _).mpr ⟨hfault, hlt⟩
  rw [exec_subRm32Imm8_of_accessible hm]
  exact finish_stops (if_pos hstop)

end Sys2Proof.Proofs.ArithmeticRules
end

section
/-! PROOF. The statement of 44_data_movement.md: the six moves. -/

namespace Sys2Proof.Proofs.MoveRules

open Sys2Proof.Machine Sys2Proof.Claims Sys2Proof.Proofs.MemoryRules Sys2Proof.Proofs.JumpRules
  Sys2Proof.Proofs.ArithmeticRules

/-- An 8-bit operand that can be accessed reads as its value (R60). -/
theorem getRM8_of_accessible {s : State} {m : RM Reg8} (h : Accessible8 s m) : s.getRM8 m = .ok (operand8 s m) := by
  cases m with
  | reg r => rfl
  | mem base d => exact memRead8_of_fits h

/-- A move into an operand that can be accessed completes, and writes that operand alone (R120, R123). -/
theorem finish_setRM32_writesOperand {s : State} {m : RM Reg32} (hs : s.Inv) (hm : Accessible32 s m) (v : Word) :
    ∃ t, s.finish (s.setRM32 m v) = .next t ∧ WritesOperand s t m v := by
  obtain ⟨t, ht, hw⟩ := setRM32_writesOperand hs hm v
  exact ⟨t, congrArg s.finish ht, hw⟩

/-- `mov r32, rm32` from an operand that can be accessed completes, and writes its register alone (R121). -/
theorem exec_movR32Rm32_of_accessible {s : State} {m : RM Reg32} (h : Accessible32 s m) (r : Reg32) :
    exec (.movR32Rm32 r m) s = .next (s.set32 r (operand32 s m)) := by
  rw [exec, execMovR32Rm32, getRM32_of_accessible h]
  rfl

/-- `mov r8, rm8` from an operand that can be accessed completes, and writes its view alone (R122). -/
theorem exec_movR8Rm8_of_accessible {s : State} {m : RM Reg8} (h : Accessible8 s m) (r : Reg8) :
    exec (.movR8Rm8 r m) s = .next (s.set8 r (operand8 s m)) := by
  rw [exec, execMovR8Rm8, getRM8_of_accessible h]
  rfl

/-- Settles O37: a move into an operand is one store, whatever the ModRM reg field (D18); a move into a register reads
its source, which succeeds; and a move of an immediate into a register is its definition. -/
theorem moveResults : Obligations.MoveResults := by
  intro s hs
  refine ⟨fun m r hm => ?_, fun r m hm => ?_, fun r m hm => ?_, fun _ m imm hm => ?_, fun _ _ => rfl, fun _ _ => rfl⟩
  · exact finish_setRM32_writesOperand hs hm (s.get32 r)
  · exact exec_movR32Rm32_of_accessible hm r
  · exact exec_movR8Rm8_of_accessible hm r
  · exact finish_setRM32_writesOperand hs hm imm

end Sys2Proof.Proofs.MoveRules
end

section
/-! PROOF. The statements of 46_stack_frame.md: the pushes and `call`, the pops, `ret` and `leave`, and that a `ret`
undoes a `call`. -/

namespace Sys2Proof.Proofs.StackRules

open Sys2Proof.Machine Sys2Proof.Claims Sys2Proof.Proofs.MemoryRules Sys2Proof.Proofs.ArithmeticRules

/-! ### Stores of one word -/

/-- A store leaves every register as it was. -/
theorem get32_of_stores {u t : State} {a : Nat} {v : Word} (h : Stores u t a v) (r : Reg32) :
    t.get32 r = u.get32 r := by
  obtain ⟨hrest, -, -⟩ := h
  rw [hrest]
  rfl

/-- A relative jump after a store is as if it came before it: no byte of memory rests on `eip`. -/
theorem stores_jumpRel {u t : State} {a : Nat} {v : Word} (h : Stores u t a v) (rel : Word) :
    Stores (u.jumpRel rel) (t.jumpRel rel) a v := by
  obtain ⟨hrest, hword, hbytes⟩ := h
  exact ⟨congrArg (State.jumpRel · rel) hrest, hword, hbytes⟩

/-! ### Pushes (R40, R135, R137, R138) -/

section Push
variable {s : State} (hs : s.Inv) (hfit : Fits s (s.get32 .esp - 4) 4)
include hs hfit

/-- A push that fits succeeds: esp is 4 lower, and the word stands at the new esp (R40). -/
theorem push32_stores (v : Word) :
    ∃ t, s.push32 v = .ok t ∧ Stores (s.set32 .esp (s.get32 .esp - 4)) t (s.get32 .esp - 4).toNat v := by
  have hinv : (s.set32 .esp (s.get32 .esp - 4)).Inv := Inv.of_mem_eq hs rfl rfl
  exact ⟨_, memWrite32_of_fits v hfit, withBytes_wordBytes_stores hinv _ v⟩

/-- A handler that only pushes completes where the push fits (R135, R137). -/
theorem finish_push32_stores (v : Word) :
    ∃ t, s.finish (s.push32 v) = .next t ∧
      Stores (s.set32 .esp (s.get32 .esp - 4)) t (s.get32 .esp - 4).toNat v := by
  obtain ⟨t, ht, hst⟩ := push32_stores hs hfit v
  exact ⟨t, congrArg s.finish ht, hst⟩

/-- A `call` whose push fits completes, with the address of the next instruction stored and its offset added (R138). -/
theorem exec_callRel32_stores (rel : Word) :
    ∃ t, exec (.callRel32 rel) s = .next t ∧
      Stores ((s.set32 .esp (s.get32 .esp - 4)).jumpRel rel) t (s.get32 .esp - 4).toNat s.eip := by
  obtain ⟨t, ht, hst⟩ := push32_stores hs hfit s.eip
  refine ⟨t.jumpRel rel, ?_, stores_jumpRel hst rel⟩
  rw [exec, execCallRel32, ht]
  rfl

end Push

/-- Settles O38: each form is one push of its own word, and `call` jumps after it. -/
theorem pushAndCallResults : Obligations.PushAndCallResults := by
  intro s hs hfit
  refine ⟨fun r => ?_, fun imm => ?_, fun rel => ?_⟩
  · exact finish_push32_stores hs hfit (s.get32 r)
  · exact finish_push32_stores hs hfit (imm.signExtend 32)
  · exact exec_callRel32_stores hs hfit rel

/-! ### Pops (R41, R136, R139, R140) -/

/-- A pop that fits gives the word at esp, as the statements write it, and raises esp by 4 (R41). -/
theorem pop32_eq_wordAt {s : State} (hfit : Fits s (s.get32 .esp) 4) :
    s.pop32 = .ok (wordAt s (s.get32 .esp).toNat, s.set32 .esp (s.get32 .esp + 4)) := by
  rw [wordAt_eq_word, pop32_of_fits hfit]

/-- `pop r32` writes its register after esp is raised (R136). -/
theorem exec_popR32_of_fits {s : State} (hfit : Fits s (s.get32 .esp) 4) (r : Reg32) :
    exec (.popR32 r) s =
      .next ((s.set32 .esp (s.get32 .esp + 4)).set32 r (wordAt s (s.get32 .esp).toNat)) := by
  rw [exec, execPopR32, pop32_eq_wordAt hfit]
  rfl

/-- `ret` pops into `eip` (R139). -/
theorem exec_ret_of_fits {s : State} (hfit : Fits s (s.get32 .esp) 4) :
    exec .ret s = .next ((s.set32 .esp (s.get32 .esp + 4)).setEip (wordAt s (s.get32 .esp).toNat)) := by
  rw [exec, execRet, pop32_eq_wordAt hfit]
  rfl

/-- `leave` pops ebp with esp moved to ebp: the first value of esp is gone (R140). -/
theorem exec_leave_of_fits {s : State} (hfit : Fits s (s.get32 .ebp) 4) :
    exec .leave s =
      .next ((s.set32 .esp (s.get32 .ebp + 4)).set32 .ebp (wordAt s (s.get32 .ebp).toNat)) := by
  rw [exec, execLeave, pop32_eq_wordAt (s := s.set32 .esp (s.get32 .ebp)) hfit]
  rfl

/-- Settles O39, by the rule of each form. -/
theorem popRetLeaveResults : Obligations.PopRetLeaveResults :=
  fun _ => ⟨exec_popR32_of_fits, exec_ret_of_fits, exec_leave_of_fits⟩

/-! ### A call and its return (R138, R139) -/

/-- Settles O27: the `ret` is at the slot of the call's push, in bounds with it, and its word is the address that the
call stored; the two moves of esp cancel. -/
theorem callThenRetRoundTrip : Obligations.CallThenRetRoundTrip := by
  intro s t u rel hs hfit hcall hesp hslot hsize
  obtain ⟨t', ht', hst⟩ := exec_callRel32_stores hs hfit rel
  obtain rfl : t' = t := by
    rw [ht'] at hcall
    injection hcall
  have hlow : t'.get32 .esp = s.get32 .esp - 4 := by
    rw [get32_of_stores hst, get32_jumpRel, get32_set32_same]
  rw [hlow] at hesp hslot
  obtain ⟨-, hstored, -⟩ := hst
  have hword : wordAt u (s.get32 .esp - 4).toNat = s.eip := hslot.trans hstored
  have hret := exec_ret_of_fits (s := u) (by rwa [Fits, hesp, hsize])
  rw [hesp, hword, BitVec.sub_add_cancel] at hret
  exact ⟨_, hret, rfl, by rw [get32_setEip, get32_set32_same]⟩

end Sys2Proof.Proofs.StackRules
end

section
/-! PROOF. The statements of 48_software_interrupt.md: the video service, and the stop of every other interrupt. -/

namespace Sys2Proof.Proofs.InterruptRules

open Sys2Proof.Machine Sys2Proof.Claims Sys2Proof.Proofs.StateRules Sys2Proof.Proofs.MemoryRules
  Sys2Proof.Proofs.CompareRules

/-! ### The views that the video service reads (R12, R151) -/

theorem get8_ah (s : State) : s.get8 .ah = (s.get32 .eax).extractLsb' 8 8 :=
  viewGet_eq_extractLsb' true (s.get32 .eax)

theorem get8_bl (s : State) : s.get8 .bl = (s.get32 .ebx).extractLsb' 0 8 :=
  viewGet_eq_extractLsb' false (s.get32 .ebx)

/-- The colour index lies in BL, so it is a field of ebx. -/
theorem colourIndex_eq (s : State) : (s.get8 .bl).extractLsb' 0 3 = (s.get32 .ebx).extractLsb' 0 3 := by
  rw [get8_bl, BitVec.extractLsb'_extractLsb'_of_le (by decide)]

/-- So does the brightness flag. -/
theorem brightnessFlag_eq (s : State) : (s.get8 .bl).getLsbD 3 = (s.get32 .ebx).getLsbD 3 := by
  rw [get8_bl, BitVec.getLsbD_extractLsb']
  rfl

/-! ### The two ways to dispatch a vector (R150) -/

/-- Vector 0x10 is the video service. -/
theorem exec_intImm8_video (s : State) : exec (.intImm8 0x10) s = s.finish s.videoService :=
  rfl

/-- No other vector has a service. -/
theorem exec_intImm8_of_ne {vec : Byte} (h : vec ≠ 0x10) (s : State) :
    exec (.intImm8 vec) s = s.finish (.error (.unimplementedInterruptVector vec none)) :=
  congrArg s.finish (if_neg h)

/-- A handler that raises for want of a service stops the core with that kind, whatever vector and AH it names. -/
theorem finish_stops_unimplementedInterruptVector {s : State} {r : Except StopError State} {vec : Byte}
    {ah : Option Byte} (h : r = .error (.unimplementedInterruptVector vec ah)) :
    ∃ t e, s.finish r = .next t ∧ StopsInHandler s t e ∧ e.kind = .unimplementedInterruptVector :=
  let ⟨t, ht, hstop⟩ := finish_stops h
  ⟨t, _, ht, hstop, rfl⟩

/-- Settles O41: the service is the teletype function, and its arguments are fields of eax and ebx. -/
theorem videoInterruptResult : Obligations.VideoInterruptResult := by
  intro s hah
  rw [exec_intImm8_video, videoService_of_teletype ((get8_ah s).trans hah), get8_al, colourIndex_eq, brightnessFlag_eq]
  rfl

/-- Settles O42: another vector stops at the dispatch; vector 0x10 stops in the service, since AH is not 0x0E. -/
theorem otherInterruptsStop : Obligations.OtherInterruptsStop := by
  intro s vec h
  by_cases hvec : vec = 0x10
  · subst hvec
    have hah : s.get8 .ah ≠ 0x0E := by
      rw [get8_ah]
      exact h.resolve_left (not_not_intro rfl)
    exact finish_stops_unimplementedInterruptVector (videoService_of_other hah)
  · rw [exec_intImm8_of_ne hvec]
    exact finish_stops_unimplementedInterruptVector rfl

end Sys2Proof.Proofs.InterruptRules
end

section
/-! PROOF. The statements of 49_port_io.md: `in` and `out`. -/

namespace Sys2Proof.Proofs.PortRules

open Sys2Proof.Machine Sys2Proof.Claims Sys2Proof.Proofs.MemoryRules Sys2Proof.Proofs.CompareRules

/-! ### The port space (R157, R158) -/

section Ports
variable {s : State} {port : Port} {b : Byte}

/-- A read of the serial port takes the byte of the input at `in_pos`, when there is one. -/
theorem portRead_serialPort (s : State) :
    s.portRead serialPort = s.portIn[s.inPos]?.map fun b => (b, { s with inPos := s.inPos + 1 }) := by
  rw [State.portRead, if_pos rfl]
  cases s.portIn[s.inPos]? <;> rfl

theorem portRead_of_ne (h : port ≠ serialPort) : s.portRead port = some (0, s) :=
  if_neg h

theorem portWrite_serialPort : s.portWrite serialPort b = .ok (s.emit [b]) :=
  if_pos rfl

theorem portWrite_of_ne (h : port ≠ serialPort) : s.portWrite port b = .error (.unimplementedPort port) :=
  if_neg h

/-! ### `in AL, DX` (R155, R157) -/

theorem exec_inAlDx_of_ne (h : s.portDX ≠ serialPort) : exec .inAlDx s = .next (s.set8 .al 0) := by
  rw [exec, execInAlDx, portRead_of_ne h]

/-- A byte of the input at `in_pos` goes to AL and is consumed. -/
theorem exec_inAlDx_of_available (h : s.portDX = serialPort) (hb : s.portIn[s.inPos]? = some b) :
    exec .inAlDx s = .next { s.set8 .al b with inPos := s.inPos + 1 } := by
  rw [exec, execInAlDx, h, portRead_serialPort, hb]
  rfl

/-- With the input all consumed the core is blocked (R174). -/
theorem exec_inAlDx_of_consumed (h : s.portDX = serialPort) (hb : s.portIn[s.inPos]? = none) :
    exec .inAlDx s = .fault .blockedOnInput := by
  rw [exec, execInAlDx, h, portRead_serialPort, hb]
  rfl

/-- A line supplied to a core that has consumed all its input puts the line's first byte at `in_pos`. -/
theorem supplyLine_getElem?_inPos (hpos : s.inPos = s.portIn.length) (b : Byte) (rest : List Byte) :
    (s.supplyLine (b :: rest)).portIn[(s.supplyLine (b :: rest)).inPos]? = some b := by
  change (s.portIn ++ [b])[s.inPos]? = some b
  rw [hpos, List.getElem?_concat_length]

end Ports

/-- Settles O43: the two ports of R157, with a byte of the input left on port 0x3F8. -/
theorem portInputResult : Obligations.PortInputResult := by
  intro s
  refine ⟨fun hne => exec_inAlDx_of_ne hne, fun hport hpos => ?_⟩
  exact exec_inAlDx_of_available hport (List.getElem?_eq_getElem hpos)

/-- Settles O44: the input is all consumed, so the core is blocked; the line supplied makes its first byte available, and
supplying it changes neither the port nor any other register. -/
theorem portInputWaitsForLine : Obligations.PortInputWaitsForLine := by
  intro s b rest hport hpos
  constructor
  · exact exec_inAlDx_of_consumed hport (List.getElem?_eq_none hpos.ge)
  · exact exec_inAlDx_of_available (s := s.supplyLine (b :: rest)) hport (supplyLine_getElem?_inPos hpos b rest)

/-- Settles O45: a write to the serial port emits AL, and a write to any other port raises, which ends the handler. -/
theorem portOutputResult : Obligations.PortOutputResult := by
  intro s
  constructor
  · intro hport
    have hdx : s.portDX = serialPort := hport
    rw [exec, execOutDxAl, hdx, portWrite_serialPort, get8_al]
    rfl
  · intro hne
    exact finish_stops (portWrite_of_ne hne)

end Sys2Proof.Proofs.PortRules
end

section
/-! PROOF. The statements of 60_exceptions.md: which error stops which instruction, and that a stop is final. -/

namespace Sys2Proof.Proofs.ExceptionRules

open Sys2Proof.Machine Sys2Proof.Claims Sys2Proof.Proofs.StateRules Sys2Proof.Proofs.PortRules

/-- Settles O7: `step` looks at the status before anything else. -/
theorem stoppedCoreHasNoStep : Obligations.StoppedCoreHasNoStep := by
  intro s e hstop
  rw [step, hstop]

/-! ### What the shared operations raise (R161, R165) -/

/-- A computation answers a value with property `P`, or raises an error of a kind in `K`. -/
inductive Answers {α : Type} (K : List StopKind) (P : α → Prop) : Except StopError α → Prop where
  | ok {a : α} (ha : P a) : Answers K P (.ok a)
  | error {e : StopError} (he : e.kind ∈ K) : Answers K P (.error e)

/-- What follows a computation may raise further errors of the same kinds. -/
theorem Answers.bind {α β : Type} {K : List StopKind} {P : α → Prop} {Q : β → Prop} {x : Except StopError α}
    {f : α → Except StopError β} (h : Answers K P x) (hf : ∀ a, P a → Answers K Q (f a)) : Answers K Q (x >>= f) := by
  cases h with
  | ok ha => exact hf _ ha
  | error he => exact .error he

section Operations
variable {K : List StopKind} (s : State)

section DataAccess
variable (hK : .outOfBounds ∈ K)
include hK

theorem getRM32_answers (m : RM Reg32) : Answers K (fun _ => True) (s.getRM32 m) := by
  rcases getRM32_cases s m with ⟨v, hr⟩ | ⟨base, d, -, -, hr⟩ <;> rw [hr]
  · exact .ok trivial
  · exact .error hK

theorem getRM8_answers (m : RM Reg8) : Answers K (fun _ => True) (s.getRM8 m) := by
  rcases getRM8_cases s m with ⟨v, hr⟩ | ⟨base, d, -, -, hr⟩ <;> rw [hr]
  · exact .ok trivial
  · exact .error hK

theorem setRM32_answers (m : RM Reg32) (v : Word) :
    Answers K (fun t => t.status = s.status) (s.setRM32 m v) := by
  rcases setRM32_cases s m v with ⟨r, -, hr⟩ | ⟨base, d, -, -, hr⟩ | ⟨base, d, -, -, hr⟩ <;> rw [hr]
  · exact .ok rfl
  · exact .ok rfl
  · exact .error hK

theorem modifyRM32_answers (m : RM Reg32) (f : Word → Word) :
    Answers K (fun t => t.status = s.status) (s.modifyRM32 m f) :=
  (getRM32_answers s hK m).bind fun a _ => setRM32_answers s hK m (f a)

theorem push32_answers (v : Word) : Answers K (fun t => t.status = s.status) (s.push32 v) := by
  rcases push32_cases s v with ⟨-, hr⟩ | ⟨-, hr⟩ <;> rw [hr]
  · exact .ok rfl
  · exact .error hK

theorem pop32_answers : Answers K (fun p => p.2.status = s.status) s.pop32 := by
  rcases pop32_cases s with ⟨-, hr⟩ | ⟨-, hr⟩ <;> rw [hr]
  · exact .ok rfl
  · exact .error hK

end DataAccess

theorem videoService_answers (hK : .unimplementedInterruptVector ∈ K) :
    Answers K (fun t => t.status = s.status) s.videoService := by
  by_cases hah : s.get8 .ah = 0x0E
  · rw [videoService_of_teletype hah]
    exact .ok rfl
  · rw [videoService_of_other hah]
    exact .error hK

theorem portWrite_answers (hK : .unimplementedPort ∈ K) (port : Port) (b : Byte) :
    Answers K (fun t => t.status = s.status) (s.portWrite port b) := by
  by_cases hport : port = serialPort
  · rw [hport, portWrite_serialPort]
    exact .ok rfl
  · rw [portWrite_of_ne hport]
    exact .error hK

end Operations

theorem subFlags_status (s : State) (a imm : Word) : (s.subFlags a imm).status = s.status := by
  unfold State.subFlags
  split <;> rfl

theorem branch_status (s : State) (taken : Bool) (rel : Byte) : (s.branch taken rel).status = s.status := by
  cases taken <;> rfl

/-! ### How an instruction ends (R82, R165) -/

/-- The ends of an instruction that began in `s`: it keeps the status, stops in its handler with an error of a kind in
`K`, or blocks (R174). -/
inductive Ends (K : List StopKind) (s : State) : Result → Prop where
  | next {t : State} (ht : t.status = s.status) : Ends K s (.next t)
  | stop {e : StopError} (he : e.kind ∈ K) : Ends K s (.next (s.stopInHandler e))
  | blocked : Ends K s (.fault .blockedOnInput)

theorem finish_ends {K : List StopKind} {s : State} {r : Except StopError State}
    (h : Answers K (fun t => t.status = s.status) r) : Ends K s (s.finish r) := by
  cases h with
  | ok ht => exact .next ht
  | error he => exact .stop he

/-- `sub rm32, imm8` has a second kind of stop, raised between its read and its store (R112). -/
theorem execSubRm32Imm8_ends (m : RM Reg32) (imm : Byte) (s : State) :
    Ends [.outOfBounds, .arithmeticUnderflow] s (execSubRm32Imm8 m imm s) := by
  refine finish_ends ((getRM32_answers s (by simp) m).bind fun a _ => ?_)
  split
  · exact .error (by simp [StopError.kind])
  · refine (setRM32_answers s (by simp) m _).bind fun t ht => .ok ?_
    rw [subFlags_status, ht]

theorem execIntImm8_ends (vec : Byte) (s : State) :
    Ends [.unimplementedInterruptVector] s (execIntImm8 vec s) := by
  refine finish_ends ?_
  split
  · exact videoService_answers s (by simp)
  · exact .error (by simp [StopError.kind])

theorem execInAlDx_ends (K : List StopKind) (s : State) : Ends K s (execInAlDx s) := by
  unfold execInAlDx
  split
  next => exact .blocked
  next b t hread =>
    obtain ⟨n, rfl⟩ := portRead_eq_some hread
    exact .next rfl

/-- Every instruction ends as the second table of R165 has it. -/
theorem exec_ends (i : Instr) (s : State) : Ends (mayRaise i) s (exec i s) := by
  have hbounds : StopKind.outOfBounds ∈ [StopKind.outOfBounds] := by simp
  cases i with
  | jmpRel32 | cmpAlImm8 | movR8Imm8 | movR32Imm32 | incR32 => exact .next rfl
  | jsRel8 | jzRel8 | jleRel8 => exact .next (branch_status _ _ _)
  | cmpR32Rm32 r m | cmpRm32Imm8 m imm | movR32Rm32 r m =>
    exact finish_ends ((getRM32_answers s hbounds m).bind fun _ _ => .ok rfl)
  | movR8Rm8 r m => exact finish_ends ((getRM8_answers s hbounds m).bind fun _ _ => .ok rfl)
  | addRm32R32 m | addRm32Imm8 m | incRm32 m | negRm32 m => exact finish_ends (modifyRM32_answers s hbounds m _)
  | subRm32Imm8 m imm => exact execSubRm32Imm8_ends m imm s
  | movRm32R32 m | movRm32Imm32 _ m => exact finish_ends (setRM32_answers s hbounds m _)
  | pushR32 | pushImm8 => exact finish_ends (push32_answers s hbounds _)
  | callRel32 rel => exact finish_ends ((push32_answers s hbounds s.eip).bind fun _ ht => .ok ht)
  | popR32 | ret => exact finish_ends ((pop32_answers s hbounds).bind fun _ hp => .ok hp)
  | leave =>
    have hpop := pop32_answers (s.set32 .esp (s.get32 .ebp)) hbounds
    exact finish_ends (hpop.bind fun _ hp => .ok hp)
  | intImm8 vec => exact execIntImm8_ends vec s
  | inAlDx => exact execInAlDx_ends _ s
  | outDxAl => exact finish_ends (portWrite_answers s (by simp [mayRaise]) _ _)

/-- Settles O50, by the ends of an instruction: one that keeps the status of a running core has not stopped it. -/
theorem handlerStopsAreThoseOfTheTable : Obligations.HandlerStopsAreThoseOfTheTable := by
  intro i s t e hrun h hstop
  have hends : Ends (mayRaise i) s (.next t) := h ▸ exec_ends i s
  cases hends with
  | next ht =>
    rw [hstop, hrun] at ht
    cases ht
  | stop he =>
    cases hstop
    exact ⟨he, rfl, rfl, rfl, rfl⟩

end Sys2Proof.Proofs.ExceptionRules
end

section
/-! PROOF. The statements of 70_reset_and_hazards.md: the reset core, and the core that Load has made ready. -/

namespace Sys2Proof.Proofs.ResetRules

open Sys2Proof.Machine Sys2Proof.Claims

/-! ### Creation (R24, R180) -/

theorem get32_create (cfg : Config) (r : Reg32) : (State.create cfg).get32 r = 0 := by
  cases r <;> rfl

/-- Settles O17: reset is creation with the parameters of the reset core. -/
theorem resetState : Obligations.ResetState :=
  ⟨get32_create defaultConfig, rfl, rfl, rfl⟩

theorem create_inv {cfg : Config} (hpos : 1 ≤ cfg.memSize) (hmax : cfg.memSize ≤ 4294967296) :
    (State.create cfg).Inv where
  wf := Memory.wf_nil
  inside := List.forall_mem_nil _
  size := ⟨hpos, hmax⟩

/-! ### Load (R186) -/

theorem load_inv {s : State} (hs : s.Inv) (image : List Host.Cell) (eip esp : Word) : (s.load image eip esp).Inv where
  wf := Memory.wf_place image hs.wf
  inside := Memory.inside_place image hs.inside
  size := hs.size

/-- Settles O15: creation lists no byte, and Load places only bytes inside memory, in canonical form. -/
theorem loadedCoreMeetsInvariant : Obligations.LoadedCoreMeetsInvariant :=
  ⟨create_inv (by decide) (by decide), fun _ image eip esp hpos hmax => load_inv (create_inv hpos hmax) image eip esp⟩

/-- An address that no cell names is as before. -/
theorem read_place_of_not_mem {size a : Nat} {cs : List Host.Cell} (m : Memory) (h : ∀ b, (a, b) ∉ cs) :
    (Memory.place size m cs).read a = m.read a := by
  induction cs generalizing m with
  | nil => rfl
  | cons c cs ih =>
    obtain ⟨x, v⟩ := c
    have hax : a ≠ x := by
      rintro rfl
      exact h v List.mem_cons_self
    rw [Memory.place, ih _ fun b hb => h b (List.mem_cons_of_mem _ hb)]
    split
    · exact Memory.read_write_ne v hax
    · rfl

/-- A cell inside memory, whose address no other cell names, is placed. -/
theorem read_place_of_mem {size a : Nat} {b : Byte} {cs : List Host.Cell} {m : Memory} (hm : Memory.wf m)
    (hcs : cs.Pairwise fun c d => c.1 ≠ d.1) (hb : (a, b) ∈ cs) (ha : a < size) :
    (Memory.place size m cs).read a = b := by
  induction cs generalizing m with
  | nil => cases hb
  | cons c cs ih =>
    obtain ⟨hne, hcs⟩ := List.pairwise_cons.mp hcs
    rw [Memory.place]
    rcases List.mem_cons.mp hb with rfl | hb
    · rw [if_pos ha, read_place_of_not_mem _ fun b' hb' => hne _ hb' rfl]
      exact Memory.read_write_same a b hm
    · exact ih (Memory.wf_place [c] hm) hcs hb

/-- Settles O18: Load writes esp, `eip` and memory, and the rest is as created. -/
theorem loadedCoreState : Obligations.LoadedCoreState := by
  intro cfg image eip esp s
  have hreg : ∀ r, s.get32 r = ((State.create cfg).set32 .esp esp).get32 r := fun _ => rfl
  refine ⟨fun r hr => ?_, ?_, rfl, rfl, rfl, rfl, rfl, rfl, fun himage a b hb ha => ?_, fun a h => ?_⟩
  · rw [hreg, get32_set32_ne _ _ hr, get32_create]
  · rw [hreg, get32_set32_same]
  · exact read_place_of_mem Memory.wf_nil himage hb ha
  · exact read_place_of_not_mem [] h

end Sys2Proof.Proofs.ResetRules
end
